-- ==== Sys2Proof/Word.lean ====
section
/-! DEFINITION. The bit-vector types of the fp16 core: bytes of the buffer and patterns of the three formats
(spec/00_scope.md section 4, `W_H` = 16 and `W_D` = 64; a pattern is "the bits of a value of a format, as an unsigned
integer of the format's width", section 8). -/

namespace Sys2Proof

/-- One byte of the buffer (R24, R30: 8 bits). -/
abbrev Byte := BitVec 8

/-- A binary16 pattern (R2). -/
abbrev Half := BitVec 16

/-- A binary32 pattern (R2); it is only a classifier target and never on a port (R63). -/
abbrev Single := BitVec 32

/-- A binary64 pattern (R2), and the width of the data ports `a` and `y` (R26). -/
abbrev Double := BitVec 64

end Sys2Proof
end

