-- ==== Sys2Proof/Config.lean ====
section
/-! DEFINITION. What is fixed before any request and never changed by one (spec/10_state.md R29): the shape of a
format's constants, the one free value, and the length of the buffer of the reset state. -/

namespace Sys2Proof

/-- The independent constants of a floating-point format, columns of the table of R1: exponent bits, mantissa bits
and bias. The rows are in Machine/Operands.lean. -/
structure Format where
  ebits : Nat
  w     : Nat
  bias  : Nat
  deriving DecidableEq, Repr

/-- The byte the buffer holds at each offset where nothing has been placed or written: the open initial content of
`Buf`, "`any value`, fixed for the run" (spec/93_implementation_defined.md U8; R28, R116). It has no body, so nothing
can be proved of its values. Log entry 5 (DESIGN CHOICE for the form, safe). -/
opaque Config.initialByte : Nat → Byte

/-- `BUFLEN` of the reset state. The spec leaves `BUFLEN` open and gives no reset value; 8 is the length with which
its two buffer programs P1 and P4 start (spec/95_test_vectors.md section 7). DESIGN CHOICE, unsafe for statements
about `State.reset` alone: log entry 4. Every other state has the length its field `bufLen` says. -/
def Config.resetBufLen : Nat := 8

end Sys2Proof
end

