-- ==== Sys2Proof/Syntax.lean ====
section
/-! DEFINITION. The operations as data (spec/30_encoding.md): one constructor of Instr per row of the opcode table,
the request record of the ports (spec/10_state.md R26), the four labels (R6), and the lines of the written listing
with the aliases of the source (R53, R54). -/

namespace Sys2Proof

/-- The byte order of a buffer access (R33): `little` when `le` = 1, `big` when `le` = 0. -/
inductive ByteOrder where
  | big
  | little
  deriving DecidableEq, Repr

/-- The classifier's result (R6): "one of exactly four mutually exclusive labels". -/
inductive Label where
  | exact
  | inexact
  | underflow
  | overflow
  deriving DecidableEq, Repr

/-- The six operations of the core (R45), each with the operands it reads and no others (R48). -/
inductive Instr where
  /-- DEC16 (R62): `h` is the binary16 pattern `a[15:0]`. -/
  | dec16 (h : Half)
  /-- ENC16 (R79): `d` is the binary64 pattern `a`. -/
  | enc16 (d : Double)
  /-- CLS16 (R92): `d` is the binary64 pattern `a`, the target binary16. -/
  | cls16 (d : Double)
  /-- CLS32 (R93): `d` is the binary64 pattern `a`, the target binary32. -/
  | cls32 (d : Double)
  /-- LDDEC16 (R67): byte order and byte offset of the binary16 pattern in the buffer. -/
  | lddec16 (le : ByteOrder) (off : Nat)
  /-- ENCST16 (R81): byte order and byte offset of the destination, and the binary64 pattern. -/
  | encst16 (le : ByteOrder) (off : Nat) (d : Double)
  deriving DecidableEq, Repr

/-- One request, the values on the input ports (R26). `cmd` is the 4-bit command word: bit 3 is `le`, bits 2 to 0 are
`op` (R46). `OFFW` is open, so `off` is a natural number (spec/00_scope.md section 4; log entry 8). -/
structure Request where
  cmd : BitVec 4
  a   : Double
  off : Nat
  deriving DecidableEq, Repr

/-- The names a listing line may begin with: the mnemonics of R53 and the aliases of R54 (the source's own operation
names). -/
inductive LineName where
  | dec16
  | enc16
  | cls16
  | cls32
  | lddec16
  | encst16
  | decodeAlias
  | encodeAlias
  | classifyToHalf
  | classifyToSingle
  deriving DecidableEq, Repr

/-- One line of a listing (R53): a name, the suffix `.le` or `.be` if there is one, the offset in brackets if there is
one, and the data operand if there is one. Numerals are unsigned. -/
structure Line where
  name  : LineName
  order : Option ByteOrder
  off   : Option Nat
  a     : Option Nat
  deriving DecidableEq, Repr

end Sys2Proof
end

