-- ==== Sys2Proof/WellFormed.lean ====
section
/-! DEFINITION. Which requests select an operation (spec/30_encoding.md R47, R50) and which listing lines are legal
(R53). An Instr needs no check of its own: "within the six defined operations there is no reserved operand value"
(R50), and its operand types hold exactly the values of the inputs it reads (R48). -/

namespace Sys2Proof

/-- The operation select of a command word, `CMD[2:0]` (R46). -/
def opField (cmd : BitVec 4) : BitVec 3 := cmd.extractLsb' 0 3

/-- The request selects an operation: its `op` is not one of the reserved codes 110 and 111 (R50). The other inputs
do not matter. -/
def Request.wellFormed (r : Request) : Bool := opField r.cmd != 6 && opField r.cmd != 7

/-- The name is one of a buffer form, LDDEC16 or ENCST16 under either spelling. -/
def LineName.isBufferForm : LineName → Bool
  | .lddec16 => true
  | .encst16 => true
  | .decodeAlias => true
  | .encodeAlias => true
  | .dec16 => false
  | .enc16 => false
  | .cls16 => false
  | .cls32 => false
  | .classifyToHalf => false
  | .classifyToSingle => false

/-- The name is one whose line carries a data operand: every form but LDDEC16's. -/
def LineName.takesData : LineName → Bool
  | .lddec16 => false
  | .decodeAlias => false
  | .encst16 => true
  | .encodeAlias => true
  | .dec16 => true
  | .enc16 => true
  | .cls16 => true
  | .cls32 => true
  | .classifyToHalf => true
  | .classifyToSingle => true

/-- A data operand is a numeral that fits the 64-bit port `a`. -/
def fitsDataPort : Option Nat → Bool
  | none => true
  | some n => decide (n < 2 ^ 64)

/-- A legal listing line (R53): a suffix and an offset on the buffer forms and on no other, a data operand on every
form that reads `a` and on no other. DESIGN CHOICE, safe (log entry 13): the operand must fit the 64-bit port; R53 does
not say what a line with a larger one stands for. -/
def Line.wellFormed (l : Line) : Bool :=
  l.order.isSome == l.name.isBufferForm && l.off.isSome == l.name.isBufferForm &&
    l.a.isSome == l.name.takesData && fitsDataPort l.a

end Sys2Proof
end

