-- ==== Sys2Proof/Decode.lean ====
section
/-! DEFINITION. From a request to the operation it selects and back (spec/30_encoding.md R46 to R54). `decode` is total
on every request and rejects a reserved `op` by name; `encode` gives the request a requester writes for an operation,
with every ignored input 0; a listing line expands to one request. -/

namespace Sys2Proof

/-- Why a request selects no operation: its `op` is reserved (R50). -/
inductive DecodeError where
  | reservedOp (op : BitVec 3)
  deriving DecidableEq, Repr

/-- The byte order a command word asks for, `CMD[3]` (R33, R46): 1 little-endian, 0 big-endian. -/
def orderField (cmd : BitVec 4) : ByteOrder :=
  if cmd.getLsbD 3 then .little else .big

/-- The `le` bit of a byte order (R33, D14). -/
def ByteOrder.bit : ByteOrder → BitVec 1
  | .big => 0
  | .little => 1

/-- The operation a request selects (R47), with the inputs that operation reads (R48): the rest of the request is
dropped here and reaches nothing (D5). The choice is on `op` alone (R52, R104). -/
def decode (r : Request) : Except DecodeError Instr :=
  match (opField r.cmd).toNat with
  | 0 => .ok (.dec16 (r.a.extractLsb' 0 16))
  | 1 => .ok (.enc16 r.a)
  | 2 => .ok (.cls16 r.a)
  | 3 => .ok (.cls32 r.a)
  | 4 => .ok (.lddec16 (orderField r.cmd) r.off)
  | 5 => .ok (.encst16 (orderField r.cmd) r.off r.a)
  | _ => .error (.reservedOp (opField r.cmd))

/-- The operation code of an operation (R47). -/
def opcode : Instr → BitVec 3
  | .dec16 _ => 0
  | .enc16 _ => 1
  | .cls16 _ => 2
  | .cls32 _ => 3
  | .lddec16 _ _ => 4
  | .encst16 _ _ _ => 5

/-- The `le` bit of an operation's command word; "for the value forms the listing encodes CMD[3] as 0" (R53). -/
def leBit : Instr → BitVec 1
  | .dec16 _ => 0
  | .enc16 _ => 0
  | .cls16 _ => 0
  | .cls32 _ => 0
  | .lddec16 le _ => le.bit
  | .encst16 le _ _ => le.bit

/-- The command word of an operation, `CMD` = le, op (R46). -/
def commandWord (i : Instr) : BitVec 4 := leBit i ++ opcode i

/-- The data port of an operation's request (R48); 0 where the operation does not read it. -/
def dataPort : Instr → Double
  | .dec16 h => h.setWidth 64
  | .enc16 d => d
  | .cls16 d => d
  | .cls32 d => d
  | .lddec16 _ _ => 0
  | .encst16 _ _ d => d

/-- The offset port of an operation's request (R48, R51); 0 where the operation does not read it. -/
def offsetPort : Instr → Nat
  | .dec16 _ => 0
  | .enc16 _ => 0
  | .cls16 _ => 0
  | .cls32 _ => 0
  | .lddec16 _ off => off
  | .encst16 _ off _ => off

/-- The request that asks for an operation, every input it does not read 0. -/
def encode (i : Instr) : Request :=
  { cmd := commandWord i, a := dataPort i, off := offsetPort i }

/-- The request whose command word is the low bits of `w`, as the opcode table numbers them. The command port has four
wires, and the table gives a row's operands no bits, so the other inputs are 0 (log entry 9). -/
def tableRequest (nbits w : Nat) : Request :=
  { cmd := BitVec.ofNat 4 (w % 2 ^ nbits), a := 0, off := 0 }

/-- The instruction the decoder reads from a table row's word. -/
def decodeTableWord (nbits w : Nat) : Option Instr :=
  match decode (tableRequest nbits w) with
  | .ok i => some i
  | .error _ => none

/-- The operation code a line's name expands to; "each expanding to exactly one operation" (R54). -/
def LineName.op : LineName → BitVec 3
  | .dec16 => 0
  | .enc16 => 1
  | .cls16 => 2
  | .classifyToHalf => 2
  | .cls32 => 3
  | .classifyToSingle => 3
  | .lddec16 => 4
  | .decodeAlias => 4
  | .encst16 => 5
  | .encodeAlias => 5

/-- The `le` bit a line's suffix stands for; no suffix encodes as 0 (R53). -/
def suffixBit : Option ByteOrder → BitVec 1
  | none => 0
  | some le => le.bit

/-- The request a listing line stands for (R53, R54); none for a line that is not legal. DESIGN CHOICE, safe (log
entry 13): R53 says nothing of an input the form does not have (R48 calls it ignored); here the request has 0 on it. -/
def Line.request (l : Line) : Option Request :=
  if l.wellFormed then
    some { cmd := suffixBit l.order ++ l.name.op, a := BitVec.ofNat 64 (l.a.getD 0), off := l.off.getD 0 }
  else none

end Sys2Proof
end

