-- ==== Sys2Proof/Machine/State.lean ====
section
/-! DEFINITION. The state of the machine (spec/10_state.md): the buffer and its length, and, because a step of the
model has no other argument, the requester's side of the ports: the requests it still issues and the answers it has
received. The core itself holds nothing (R20 to R25, R29). -/

namespace Sys2Proof.Machine

/-- The buffer's placed and written bytes: (offset, byte) pairs. An offset that is not listed holds the open initial
byte (R116, log entry 5). -/
abbrev Memory := List Host.Cell

/-- The canonical form: offsets strictly rising, hence no offset twice. No entry can be what an unlisted offset looks
up as, since that is no byte at all (Machine/Ops.lean, `Memory.lookup`; log entry 5). -/
abbrev Memory.wf (m : Memory) : Prop := m.Pairwise (fun c d => c.1 < d.1)

/-- The exceptions of the whole machine (R101): one, and it is the buffer owner's bounds check. `bufferRange off` is
raised by LDDEC16 and ENCST16 when `off + 2 > BUFLEN`; it is reported and the machine goes on (R105, R106), so it is
taken as a next state and is no constructor of Fault. -/
inductive Exc where
  | bufferRange (off : Nat)
  deriving DecidableEq, Repr

/-- What the requester gets back for one request (R122): `result y`, the operation completed and `y` is on the result
port; `raised e`, it ended in an exception and `y` carries no value (R101, U10). -/
inductive Response where
  | result (y : Double)
  | raised (e : Exc)
  deriving DecidableEq, Repr

/-- The machine and the requester's side of its ports. -/
structure State where
  /-- `Buf`: what has been placed or written in the buffer (R24). -/
  buf       : Memory
  /-- `BUFLEN`, fixed before the first request (R29, R122). -/
  bufLen    : Nat
  /-- The requests still to come, the next first: an input of the machine (R29), held here (log entry 1). -/
  requests  : List Request
  /-- The answers received, the newest first: outputs of the machine (R121), never read by it (log entry 2). -/
  responses : List Response
  deriving DecidableEq, Repr

/-- No step of this machine stops with a fault: the core "raises no exception, ever" (R100), the one exception of the
buffer is reported on the `fault` port and the machine goes on (R105, R106; log entry 6), and there is nothing else
that could stop it (R103, R113). The type has no constructor; nobody raises one, which is safe. -/
inductive Fault where
  deriving DecidableEq, Repr

/-- Why a step gives the instruction no meaning. -/
inductive Refusal where
  /-- Raised by `exec` for an instruction the model does not cover; no arm does so. Safe. -/
  | notModelled (mnemonic : String)
  /-- Raised by `step` for a request whose `op` is 110 or 111: it "select[s] no operation" and "a model refuses a
  request with a reserved op" (R50, D4). Safe: nothing can be claimed of such a request. -/
  | reservedOp (op : BitVec 3)
  deriving DecidableEq, Repr

/-- Before the first request (R28, R115): nothing is listed in the buffer (its content is open, R116), its length is
the one log entry 4 names, no request is pending, and `y` and `fault` have no value. -/
def State.reset : State :=
  { buf := [], bufLen := Config.resetBufLen, requests := [], responses := [] }

end Sys2Proof.Machine
end

