-- ==== Sys2Proof/Machine/Ops.lean ====
section
/-! DEFINITION. The named operations over the buffer and the ports: the cells of the memory, MemRead and MemWrite
(spec/00_scope.md section 5.2), BufRead16 and BufWrite16 (spec/20_memory.md R34), how an operation completes (R49,
R121) and how an exception is taken (R101, R105). There is no return from an exception (R106). -/

namespace Sys2Proof.Machine

/-- The byte placed or written at an offset, none where there is none. -/
def Memory.lookup : Memory → Nat → Option Byte
  | [], _ => none
  | c :: m, k => if c.1 = k then some c.2 else Memory.lookup m k

/-- `Buf[k]`: the listed byte, or the open initial byte of that offset (R24, R41 d, R116). -/
def Memory.readByte (m : Memory) (k : Nat) : Byte :=
  (Memory.lookup m k).getD (Config.initialByte k)

/-- `Buf[k] <- b`: the cell of that offset is replaced or put in its place; the list stays in order. -/
def Memory.writeByte : Memory → Nat → Byte → Memory
  | [], k, b => [(k, b)]
  | c :: m, k, b =>
    if c.1 < k then c :: Memory.writeByte m k b
    else if c.1 = k then (k, b) :: m
    else (k, b) :: c :: m

/-- The `n` bytes from an offset as one number, the lowest offset in the lowest bits (section 5.2 of 00_scope.md). -/
def Memory.readBytes (m : Memory) (addr : Nat) : Nat → Nat
  | 0 => 0
  | n + 1 => (Memory.readByte m addr).toNat + 256 * Memory.readBytes m (addr + 1) n

/-- The low `n` bytes of a number written from an offset up, the lowest bits at the lowest offset. -/
def Memory.writeBytes (m : Memory) (addr : Nat) : Nat → Nat → Memory
  | 0, _ => m
  | n + 1, v => Memory.writeBytes (Memory.writeByte m addr (BitVec.ofNat 8 v)) (addr + 1) n (v / 256)

/-- `MemRead(addr, n)`: admitted when `addr + n ≤ BUFLEN`, else `BufferRange(addr)` (section 5.2; R37). -/
def memRead (s : State) (addr n : Nat) : Except Exc Nat :=
  if addr + n ≤ s.bufLen then .ok (Memory.readBytes s.buf addr n) else .error (.bufferRange addr)

/-- `MemWrite(addr, n, v)`: all `n` bytes, or none and `BufferRange(addr)` (section 5.2; R36, R37). -/
def memWrite (s : State) (addr n v : Nat) : Except Exc State :=
  if addr + n ≤ s.bufLen then .ok { s with buf := Memory.writeBytes s.buf addr n v }
  else .error (.bufferRange addr)

/-- The two bytes of a 16-bit pattern exchanged: `h[7:0]` above `h[15:8]` (R34). -/
def swapBytes (h : Half) : Half := h.extractLsb' 0 8 ++ h.extractLsb' 8 8

/-- A 16-bit pattern as it lies in the buffer read from the lowest offset up, or back: the identity for little-endian,
the exchange of its bytes for big-endian (R33, R34). -/
def inByteOrder (le : ByteOrder) (h : Half) : Half :=
  match le with
  | .little => h
  | .big => swapBytes h

/-- `BufRead16(off, le)` (R34). -/
def bufRead16 (s : State) (off : Nat) (le : ByteOrder) : Except Exc Half :=
  match memRead s off 2 with
  | .error e => .error e
  | .ok r => .ok (inByteOrder le (BitVec.ofNat 16 r))

/-- `BufWrite16(off, le, h)` (R34). -/
def bufWrite16 (s : State) (off : Nat) (le : ByteOrder) (h : Half) : Except Exc State :=
  memWrite s off 2 (inByteOrder le h).toNat

/-- The answer to the request in hand is handed to the requester (R122). -/
def State.respond (s : State) (r : Response) : State := { s with responses := r :: s.responses }

/-- `y <- v`: the operation completes, with its result on the result port and `fault` 0 (section 5.2; R49, R121). -/
def complete (y : Double) (s : State) : Host.Outcome State Fault Refusal := .next (s.respond (.result y))

/-- `raise`: an exception is taken. The operation ends, `Buf` is as it was, `y` carries no value, `fault` is 1 and the
offset is recorded; no state is saved, no mode changes, control goes nowhere and the next request may follow (R101,
R105, R106). -/
def raise (e : Exc) (s : State) : Host.Outcome State Fault Refusal := .next (s.respond (.raised e))

/-- The code of an exception (R101, D19). -/
def Exc.code : Exc → Nat
  | .bufferRange _ => 1

/-- The value recorded with an exception, the offending `off` (R101). -/
def Exc.info : Exc → Nat
  | .bufferRange off => off

/-- The result port `y` after an answer: no value when it was an exception (R26, U10). -/
def Response.y : Response → Option Double
  | .result y => some y
  | .raised _ => none

/-- The `fault` port after an answer (R26): 1 when the operation ended in `BufferRange`. -/
def Response.fault : Response → BitVec 1
  | .result _ => 0
  | .raised _ => 1

/-- The result port `y` as the requester last saw it; "no value before the first request" (R28). -/
def State.yPort (s : State) : Option Double := s.responses.head?.bind Response.y

/-- The `fault` port as the requester last saw it; "no value before the first request" (R28). -/
def State.faultPort (s : State) : Option (BitVec 1) := s.responses.head?.map Response.fault

end Sys2Proof.Machine
end

