-- ==== Sys2Proof/Machine/Operands.lean ====
section
/-! DEFINITION. The operand forms: the three formats and the fields of their patterns (spec/00_scope.md R1, R2), the
assembly of a pattern from fields, and where a result sits on the 64-bit port (spec/30_encoding.md R49). -/

namespace Sys2Proof.Machine

/-- The rows of R1. -/
def binary16 : Format := { ebits := 5, w := 10, bias := 15 }
def binary32 : Format := { ebits := 8, w := 23, bias := 127 }
def binary64 : Format := { ebits := 11, w := 52, bias := 1023 }

/-- `allOnes` = 2^ebits − 1 (R1). -/
def allOnes (T : Format) : Nat := 2 ^ T.ebits - 1

/-- `emin` = 1 − bias (R1). -/
def emin (T : Format) : Int := 1 - (T.bias : Int)

/-- `emax` = allOnes − 1 − bias (R1). -/
def emax (T : Format) : Int := (allOnes T : Int) - 1 - (T.bias : Int)

/-- The fields of a binary16 pattern (R2): `h[15]`, `h[14:10]`, `h[9:0]`. -/
def sign16 (h : Half) : Bool := h.getLsbD 15
def exp16 (h : Half) : Nat := (h.extractLsb' 10 5).toNat
def man16 (h : Half) : Nat := (h.extractLsb' 0 10).toNat

/-- The fields of a binary32 pattern (R2): `w32[31]`, `w32[30:23]`, `w32[22:0]`. -/
def sign32 (x : Single) : Bool := x.getLsbD 31
def exp32 (x : Single) : Nat := (x.extractLsb' 23 8).toNat
def man32 (x : Single) : Nat := (x.extractLsb' 0 23).toNat

/-- The fields of a binary64 pattern (R2): `d[63]`, `d[62:52]`, `d[51:0]`. -/
def sign64 (d : Double) : Bool := d.getLsbD 63
def exp64 (d : Double) : Nat := (d.extractLsb' 52 11).toNat
def man64 (d : Double) : Nat := (d.extractLsb' 0 52).toNat

/-- The unbiased exponent `e` = E − 1023 of a binary64 pattern (spec/00_scope.md section 8; −1023 .. 1024). -/
def unbiased64 (d : Double) : Int := (exp64 d : Int) - 1023

/-- The 53-bit significand `sig` = 2^52 + F of a normal binary64 pattern (spec/00_scope.md section 8). -/
def sig64 (d : Double) : Nat := 2 ^ 52 + man64 d

/-- Class NaN of R3. -/
def isNaN16 (h : Half) : Bool := exp16 h == 31 && man16 h != 0
def isNaN64 (d : Double) : Bool := exp64 d == 2047 && man64 d != 0

/-- A binary16 pattern from its sign and its 15-bit magnitude field: `{s, r15[14:0]}` of R76. -/
def pack16 (s : Bool) (r15 : Nat) : Half := BitVec.ofBool s ++ BitVec.ofNat 15 r15

/-- A binary32 pattern from its fields. -/
def pack32 (s : Bool) (e m : Nat) : Single := BitVec.ofBool s ++ BitVec.ofNat 8 e ++ BitVec.ofNat 23 m

/-- A binary64 pattern from its fields: `{s, E64[10:0], F[51:0]}` of R64. -/
def pack64 (s : Bool) (e f : Nat) : Double := BitVec.ofBool s ++ BitVec.ofNat 11 e ++ BitVec.ofNat 52 f

/-- A binary16 pattern on the result port: `zext_64(h)`, in `y[15:0]` with `y[63:16]` = 0 (R49). -/
def placeHalf (h : Half) : Double := h.setWidth 64

end Sys2Proof.Machine
end

