-- ==== Sys2Proof/Machine/Flags.lean ====
section
/-! DEFINITION. The core has no status flags (spec/10_state.md R22, spec/60_exceptions.md R102). What it has in their
place stands here: the one-bit conditions of the rounding rule (spec/41_encoder.md R75) and the codes of the labels,
which are ordinary results (R6, R49). -/

namespace Sys2Proof.Machine

/-- "the kept value" (R75). -/
def keptValue (sig sh : Nat) : Nat := sig >>> sh

/-- "the bit immediately below the kept precision" (R75). -/
def roundBit (sig sh : Nat) : Nat := (sig >>> (sh - 1)) % 2

/-- "all bits below it collectively" (R75). -/
def stickyBits (sig sh : Nat) : Bool := sig % 2 ^ (sh - 1) != 0

/-- `up`: the round bit is set, and either sticky is nonzero or the kept value is odd (R75). -/
def roundsUp (sig sh : Nat) : Bool :=
  roundBit sig sh == 1 && (stickyBits sig sh || keptValue sig sh % 2 == 1)

/-- `RNE(sig, sh)`: round to nearest, ties to even, of `sig / 2^sh` (R75). -/
def rne (sig sh : Nat) : Nat := keptValue sig sh + (if roundsUp sig sh then 1 else 0)

/-- The 2-bit code of a label (R6, D7). -/
def labelCode : Label → BitVec 2
  | .exact => 0
  | .inexact => 1
  | .underflow => 2
  | .overflow => 3

/-- A label on the result port: its code in `y[1:0]` with `y[63:2]` = 0 (R49). -/
def placeLabel (l : Label) : Double := (labelCode l).setWidth 64

end Sys2Proof.Machine
end

