-- ==== Sys2Proof/Machine/Classifier.lean ====
section
/-! DEFINITION. float_precision_classifier (spec/42_classifier.md): CLS16 and CLS32. -/

namespace Sys2Proof.Machine

/-- `ctz` by counting, at most as many places as the first argument: the index of the lowest set bit. -/
def ctzUpTo : Nat → Nat → Nat
  | 0, _ => 0
  | k + 1, n => if n % 2 = 1 then 0 else 1 + ctzUpTo k (n / 2)

/-- `ctz(F)` of a nonzero 52-bit mantissa field (spec/00_scope.md section 5.1). -/
def ctz52 (f : Nat) : Nat := ctzUpTo 52 f

/-- The significant-bit count `n` of a binary64 mantissa field (R87). -/
def significantBits (f : Nat) : Nat := if f = 0 then 0 else 52 - ctz52 f

/-- `CLASSIFY(d, w, emax, emin)` (R92; steps R86, R88, R89, R90, R91 in that order). -/
def classify (T : Format) (d : Double) : Label :=
  if exp64 d = 0x7FF then .exact
  else if exp64 d = 0 ∧ man64 d = 0 then .exact
  else if unbiased64 d > emax T then .overflow
  else if unbiased64 d < emin T - T.w then .underflow
  else if unbiased64 d < emin T then
    if (emin T - unbiased64 d) + significantBits (man64 d) ≤ T.w then .exact else .inexact
  else if significantBits (man64 d) ≤ T.w then .exact
  else .inexact

/-- CLS16 (R92): the label for target binary16; nothing else is read or written, no exception for any input. -/
def execCls16 (d : Double) (s : State) : Host.Outcome State Fault Refusal :=
  complete (placeLabel (classify binary16 d)) s

/-- CLS32 (R93): the label for target binary32; nothing else is read or written, no exception for any input. -/
def execCls32 (d : Double) (s : State) : Host.Outcome State Fault Refusal :=
  complete (placeLabel (classify binary32 d)) s

end Sys2Proof.Machine
end

