-- ==== Sys2Proof/Machine/Decoder.lean ====
section
/-! DEFINITION. float16_decoder (spec/40_decoder.md): DEC16 and LDDEC16, and beside them the two equivalent procedures
the spec describes, the normalising loop of R64 and the route through binary32 of R63, which no port shows. -/

namespace Sys2Proof.Machine

/-- `CANON_NAN64`, the one binary64 NaN pattern the decoder emits (R66; the spec's decision D8, log entry 7). -/
def canonNaN64 : Double := 0x7FF8000000000000

/-- `msb(M)` for M > 0, the p with 2^p ≤ M < 2^(p+1) (spec/00_scope.md section 5.1). -/
def msb (m : Nat) : Nat := Nat.log2 m

/-- The 64 bits DEC16 gives for a binary16 pattern (R62; cases R61, R64, R66). -/
def decodePattern (h : Half) : Double :=
  if exp16 h = 0 ∧ man16 h = 0 then pack64 (sign16 h) 0 0
  else if exp16 h = 0 then
    pack64 (sign16 h) (msb (man16 h) + 999) ((man16 h <<< (52 - msb (man16 h))) % 2 ^ 52)
  else if exp16 h = 31 ∧ man16 h = 0 then pack64 (sign16 h) 2047 0
  else if exp16 h = 31 then canonNaN64
  else pack64 (sign16 h) (exp16 h + 1008) (man16 h <<< 42)

/-- The loop of R64 with a bound on its rounds: shift the mantissa left and decrement the working exponent until
bit 10, the implicit leading bit, is set. -/
def normalizeLoop : Nat → Nat → Int → Nat × Int
  | 0, m, e => (m, e)
  | k + 1, m, e => if m.testBit 10 then (m, e) else normalizeLoop k (m <<< 1) (e - 1)

/-- The normalised mantissa and exponent of a subnormal, "1 to 10" rounds of the loop from e = −14 (R64). -/
def normalizeSubnormal (m : Nat) : Nat × Int := normalizeLoop 10 m (-14)

/-- The binary32 pattern of the two-step route (R63) for a pattern that is not a NaN. -/
def decodeTo32 (h : Half) : Single :=
  if exp16 h = 0 ∧ man16 h = 0 then pack32 (sign16 h) 0 0
  else if exp16 h = 0 then
    pack32 (sign16 h) ((normalizeSubnormal (man16 h)).2 + 127).toNat
      (((normalizeSubnormal (man16 h)).1 % 2 ^ 10) <<< 13)
  else if exp16 h = 31 then pack32 (sign16 h) 255 (man16 h <<< 13)
  else pack32 (sign16 h) (exp16 h + 112) (man16 h <<< 13)

/-- The second step of the route (R63): all-zero and all-ones exponent fields stay so, any other moves up by 896; the
mantissa moves up by 29 places. -/
def widen32 (x : Single) : Double :=
  if exp32 x = 0 then pack64 (sign32 x) 0 (man32 x <<< 29)
  else if exp32 x = 255 then pack64 (sign32 x) 2047 (man32 x <<< 29)
  else pack64 (sign32 x) (exp32 x + 896) (man32 x <<< 29)

/-- The route through binary32 (R63); "NaN becomes CANON_NAN64". -/
def decodeVia32 (h : Half) : Double :=
  if isNaN16 h then canonNaN64 else widen32 (decodeTo32 h)

/-- DEC16 (R62): no state is read or written but the answer; no exception for any input (R60, R100). -/
def execDec16 (h : Half) (s : State) : Host.Outcome State Fault Refusal :=
  complete (decodePattern h) s

/-- LDDEC16 (R67): read the pattern in the byte order asked for, then decode it; `BufferRange(off)` when the read is
not admitted. -/
def execLddec16 (le : ByteOrder) (off : Nat) (s : State) : Host.Outcome State Fault Refusal :=
  match bufRead16 s off le with
  | .error e => raise e s
  | .ok h => complete (decodePattern h) s

end Sys2Proof.Machine
end

