-- ==== Sys2Proof/Machine/Encoder.lean ====
section
/-! DEFINITION. float16_encoder (spec/41_encoder.md): ENC16 and ENCST16. -/

namespace Sys2Proof.Machine

/-- `CANON_NAN16`, the one binary16 NaN pattern the encoder emits (R71). -/
def canonNaN16 : Half := 0x7E00

/-- The 15-bit magnitude field of infinity, `1^5, 0^10` (R72, R74). -/
def infinityMagnitude : Nat := 0x7C00

/-- The 16 bits ENC16 gives for a binary64 pattern; the first matching line decides (R79; R71 to R78). -/
def encodePattern (d : Double) : Half :=
  if exp64 d = 0x7FF ∧ man64 d ≠ 0 then canonNaN16
  else if exp64 d = 0x7FF then pack16 (sign64 d) infinityMagnitude
  else if exp64 d = 0 then pack16 (sign64 d) 0
  else if unbiased64 d > 15 then pack16 (sign64 d) infinityMagnitude
  else if unbiased64 d ≥ -14 then
    pack16 (sign64 d) (rne (sig64 d) 42 + ((unbiased64 d + 14).toNat <<< 10))
  else if unbiased64 d ≥ -25 then pack16 (sign64 d) (rne (sig64 d) (28 - unbiased64 d).toNat)
  else pack16 (sign64 d) 0

/-- ENC16 (R79): no state is read or written but the answer; no exception for any input (R70, R100). -/
def execEnc16 (d : Double) (s : State) : Host.Outcome State Fault Refusal :=
  complete (placeHalf (encodePattern d)) s

/-- ENCST16 (R81): encode, write the pattern in the byte order asked for, show it on `y` (D9); `BufferRange(off)` when
the write is not admitted, and then no byte is written. -/
def execEncst16 (le : ByteOrder) (off : Nat) (d : Double) (s : State) : Host.Outcome State Fault Refusal :=
  match bufWrite16 s off le (encodePattern d) with
  | .error e => raise e s
  | .ok t => complete (placeHalf (encodePattern d)) t

end Sys2Proof.Machine
end

