-- ==== Sys2Proof/Machine/Dispatch.lean ====
section
/-! DEFINITION. One arm per operation, each a call of its meaning (spec/30_encoding.md R45). -/

namespace Sys2Proof.Machine

def exec (i : Instr) (s : State) : Host.Outcome State Fault Refusal :=
  match i with
  | .dec16 h => Sys2Proof.Machine.execDec16 h s
  | .enc16 d => Sys2Proof.Machine.execEnc16 d s
  | .cls16 d => Sys2Proof.Machine.execCls16 d s
  | .cls32 d => Sys2Proof.Machine.execCls32 d s
  | .lddec16 le off => Sys2Proof.Machine.execLddec16 le off s
  | .encst16 le off d => Sys2Proof.Machine.execEncst16 le off d s

end Sys2Proof.Machine
end

