-- ==== Sys2Proof/Machine/Step.lean ====
section
/-! DEFINITION. One step is one request (spec/10_state.md R21, R26; spec/70_reset_and_hazards.md R118): the next request
is taken, decoded on its `op` alone, and performed to its end. -/

namespace Sys2Proof.Machine

/-- Take the next request. With none pending nothing happens (R121: a run "ends when the requester issues no more";
log entry 3). A reserved `op` is refused before any operand is looked at (R50, R104). -/
def step (s : State) : Host.Outcome State Fault Refusal :=
  match s.requests with
  | [] => .next s
  | r :: rest =>
    match decode r with
    | .error (.reservedOp op) => .refused (.reservedOp op)
    | .ok i => exec i { s with requests := rest }

/-- The state with the request of a table row's word put on the ports as the next one, every operand 0. Nothing is
fetched from memory (R21, R44), so nothing else changes (log entry 9). -/
def State.withFetchWord (s : State) (nbits w : Nat) : State :=
  { s with requests := tableRequest nbits w :: s.requests }

end Sys2Proof.Machine
end

