-- ==== Sys2Proof/Machine/Listing.lean ====
section
/-! DEFINITION. Reading the text of a listing line (spec/30_encoding.md R53, R54, D18). Text is a list of characters.
What the spec leaves open of the text is log entry 13. -/

namespace Sys2Proof.Machine

/-- A letter in small form: "Mnemonics are not case-sensitive" (R53). -/
def lowerChar (c : Char) : Char :=
  if 65 ≤ c.toNat ∧ c.toNat ≤ 90 then Char.ofNat (c.toNat + 32) else c

/-- The names of R53 and R54 in small letters. -/
def nameTable : List (List Char × LineName) :=
  [ (['d','e','c','1','6'], .dec16), (['e','n','c','1','6'], .enc16),
    (['c','l','s','1','6'], .cls16), (['c','l','s','3','2'], .cls32),
    (['l','d','d','e','c','1','6'], .lddec16), (['e','n','c','s','t','1','6'], .encst16),
    (['d','e','c','o','d','e'], .decodeAlias), (['e','n','c','o','d','e'], .encodeAlias),
    (['c','l','a','s','s','i','f','y','t','o','h','a','l','f'], .classifyToHalf),
    (['c','l','a','s','s','i','f','y','t','o','s','i','n','g','l','e'], .classifyToSingle) ]

/-- The suffixes of R53. -/
def suffixTable : List (List Char × Option ByteOrder) :=
  [ ([], none), (['.','l','e'], some .little), (['.','b','e'], some .big) ]

/-- A name and its suffix, in any letters. "Mnemonics are not case-sensitive" (R53). DESIGN CHOICE, safe (log entry 13):
the spec does not say it of the suffixes `.le` and `.be` or of the alias names of R54; here they may be in capitals
too. -/
def readName (word : List Char) : Option (LineName × Option ByteOrder) :=
  match suffixTable.find? (fun x => nameTable.any (fun n => n.1 ++ x.1 == word.map lowerChar)) with
  | none => none
  | some x =>
    match nameTable.find? (fun n => n.1 ++ x.1 == word.map lowerChar) with
    | none => none
    | some n => some (n.2, x.2)

/-- The value of a digit in a base of at most 16; the spec writes hexadecimal digits in both letters (R53's own example,
`dec16 0x3c00 => y = 0x3FF0000000000000`). -/
def digitValue (base : Nat) (c : Char) : Option Nat :=
  if 48 ≤ c.toNat ∧ c.toNat ≤ 57 then
    if c.toNat - 48 < base then some (c.toNat - 48) else none
  else if 97 ≤ (lowerChar c).toNat ∧ (lowerChar c).toNat ≤ 102 then
    if (lowerChar c).toNat - 87 < base then some ((lowerChar c).toNat - 87) else none
  else none

/-- The number a row of digits stands for, the value of the digits before it given; underscores "are separators only"
(spec/00_scope.md section 5.1). DESIGN CHOICE, safe (log entry 13): the spec does not say where in a numeral they may
stand, or whether underscores with no digit among them (`_`, `0x_`) are a numeral; here they may stand anywhere after
the `0x`, and without a digit they are a numeral and stand for 0. -/
def readDigits (base : Nat) : Nat → List Char → Option Nat
  | v, [] => some v
  | v, '_' :: cs => readDigits base v cs
  | v, c :: cs =>
    match digitValue base c with
    | none => none
    | some x => readDigits base (v * base + x) cs

/-- An unsigned numeral, "hexadecimal with `0x`, or decimal" (R53). -/
def readNumeral : List Char → Option Nat
  | [] => none
  | '0' :: 'x' :: c :: cs => readDigits 16 0 (c :: cs)
  | c :: cs => readDigits 10 0 (c :: cs)

/-- An offset in brackets, `[OFF]`. -/
def readOffset : List Char → Option Nat
  | '[' :: cs => if cs.getLast? = some ']' then readNumeral cs.dropLast else none
  | _ => none

/-- The words of a line up to a comment or the result that "is written after `=>`": the characters of the word in hand
are the first argument, in reverse. Spaces and commas end a word, which is the model's choice (DESIGN CHOICE, safe, log entry 13). -/
def wordsOf : List Char → List Char → List (List Char)
  | cur, [] => if cur = [] then [] else [cur.reverse]
  | cur, ';' :: _ => if cur = [] then [] else [cur.reverse]
  | cur, '=' :: '>' :: _ => if cur = [] then [] else [cur.reverse]
  | cur, c :: cs =>
    if c = ' ' ∨ c = ',' then
      if cur = [] then wordsOf [] cs else cur.reverse :: wordsOf [] cs
    else wordsOf (c :: cur) cs

/-- The operands after the name: `A`, `[OFF]`, or `[OFF], A` (R53). -/
def readOperands : List (List Char) → Option (Option Nat × Option Nat)
  | [x] =>
    match readOffset x, readNumeral x with
    | some off, _ => some (some off, none)
    | none, some a => some (none, some a)
    | none, none => none
  | [x, y] =>
    match readOffset x, readNumeral y with
    | some off, some a => some (some off, some a)
    | _, _ => none
  | _ => none

/-- A line of text read as a line of a listing; none where it is not one of R53's and R54's forms. -/
def readLine (text : List Char) : Option Line :=
  match wordsOf [] text with
  | [] => none
  | word :: rest =>
    match readName word, readOperands rest with
    | some n, some x =>
      let l : Line := { name := n.1, order := n.2, off := x.1, a := x.2 }
      if l.wellFormed then some l else none
    | _, _ => none

end Sys2Proof.Machine
end

