-- ==== Sys2Proof/Machine/Values.lean ====
section
/-! DEFINITION. The meaning of a pattern (spec/00_scope.md R3, section 5.3) and of correct rounding (R80): what the
statements about the conversions are written in. No operation of the core uses this file. -/

namespace Sys2Proof.Machine

/-- An element of the extended reals with signed zero and one NaN (section 5.3). `finite neg m` is the nonzero real of
magnitude `m` × 2^−1074, negative when `neg`: 2^−1074 is the spacing of the smallest values of the widest format, so
every value of the three formats is a whole number of it (log entry 12). -/
inductive Value where
  | zero (neg : Bool)
  | finite (neg : Bool) (m : Nat)
  | infinite (neg : Bool)
  | nan
  deriving DecidableEq, Repr

/-- How many places 2^(1 − bias − w), the unit of a format's subnormals, lies above 2^−1074. -/
def unitShift (T : Format) : Nat := 1075 - T.bias - T.w

/-- The table of R3 for a format and the three fields of a pattern. -/
def valueOf (T : Format) (s : Bool) (e m : Nat) : Value :=
  if e = 0 then
    if m = 0 then .zero s else .finite s (m * 2 ^ unitShift T)
  else if e = allOnes T then
    if m = 0 then .infinite s else .nan
  else .finite s ((2 ^ T.w + m) * 2 ^ (e - 1 + unitShift T))

/-- `val16`, `val32`, `val64` (section 5.3). -/
def val16 (h : Half) : Value := valueOf binary16 (sign16 h) (exp16 h) (man16 h)
def val32 (x : Single) : Value := valueOf binary32 (sign32 x) (exp32 x) (man32 x)
def val64 (d : Double) : Value := valueOf binary64 (sign64 d) (exp64 d) (man64 d)

/-- The real 2^k in the unit of `Value.finite`, for k ≥ −1074. -/
def powerOfTwo (k : Int) : Nat := 2 ^ (k + 1074).toNat

/-- The multiple of `q` nearest to `x`, the even multiple on a tie (R80). -/
def nearestMultiple (x q : Nat) : Nat :=
  if 2 * (x % q) < q then (x / q) * q
  else if 2 * (x % q) > q then (x / q + 1) * q
  else if (x / q) % 2 = 0 then (x / q) * q
  else (x / q + 1) * q

/-- The spacing of a format's values at a magnitude (R80): the unit of the subnormals below 2^(emin + 1), else
2^(floor(log2 x) − w). -/
def spacing (T : Format) (x : Nat) : Nat :=
  if x < powerOfTwo (emin T + 1) then 2 ^ unitShift T else 2 ^ (Nat.log2 x - T.w)

/-- A magnitude rounded to a format (R80): zero, a finite value, or infinity from 2^(emax + 1) up. -/
def roundMagnitude (T : Format) (s : Bool) (x : Nat) : Value :=
  if nearestMultiple x (spacing T x) ≥ powerOfTwo (emax T + 1) then .infinite s
  else if nearestMultiple x (spacing T x) = 0 then .zero s
  else .finite s (nearestMultiple x (spacing T x))

/-- The value of the format nearest to a value, ties to even (R80; for binary32 the "round-to-nearest-even narrowing
that some other unit performs" of spec/42_classifier.md R93, R94). -/
def roundTo (T : Format) : Value → Value
  | .zero s => .zero s
  | .finite s x => roundMagnitude T s x
  | .infinite s => .infinite s
  | .nan => .nan

/-- The sign of a value, none for NaN. -/
def Value.sign : Value → Option Bool
  | .zero s => some s
  | .finite s _ => some s
  | .infinite s => some s
  | .nan => none

/-- The magnitude of a value in the unit of `Value.finite`; infinity stands above every finite value of the formats,
whose magnitudes are below 2^1024. -/
def Value.magnitude : Value → Nat
  | .zero _ => 0
  | .finite _ m => m
  | .infinite _ => powerOfTwo 1024
  | .nan => 0

/-- The place of a value on the line of the extended reals, −0 and +0 at the same place; NaN has none. -/
def Value.place (v : Value) : Int :=
  if v.sign = some true then -(v.magnitude : Int) else (v.magnitude : Int)

/-- `v ≤ u` as extended reals; a NaN is in no order with anything. -/
abbrev Value.atMost (v u : Value) : Prop := v ≠ .nan ∧ u ≠ .nan ∧ v.place ≤ u.place

end Sys2Proof.Machine
end

