-- ==== Sys2Proof/Safety.lean ====
section
/-! DEFINITION. What the statements say of states and runs: the invariant of the buffer, the mark of R121, and the
bytes an access touches. -/

namespace Sys2Proof.Machine

/-- The invariant of the buffer: its cells are in canonical form and lie inside the buffer, the offsets 0 ..
`BUFLEN` − 1 (spec/10_state.md R24). -/
abbrev State.Inv (s : State) : Prop := Memory.wf s.buf ∧ ∀ c ∈ s.buf, c.1 < s.bufLen

/-- An answer is an exception. -/
def Response.isRaised : Response → Bool
  | .result _ => false
  | .raised _ => true

/-- The mark of spec/70_reset_and_hazards.md R121: some request of the run "ended in `BufferRange`". (A refused request
ends the model's run, so it needs no mark.) A claim about what a run computed is about an unmarked run. -/
def State.marked (s : State) : Bool := s.responses.any Response.isRaised

/-- Every exception the requester was told of belongs to an access that was not admitted (R37, R101). -/
abbrev State.ReportsAreTrue (s : State) : Prop :=
  ∀ off, Response.raised (.bufferRange off) ∈ s.responses → off + 2 > s.bufLen

/-- The two offsets of a 2-byte access at `off` (R32, R36). -/
abbrev touches (off k : Nat) : Prop := k = off ∨ k = off + 1

/-- The byte that a store of a 16-bit pattern puts at offset `k`, one of the two it touches (table of R33). -/
def storedByte (le : ByteOrder) (off : Nat) (h : Half) (k : Nat) : Byte :=
  match le with
  | .little => if k = off then h.extractLsb' 0 8 else h.extractLsb' 8 8
  | .big => if k = off then h.extractLsb' 8 8 else h.extractLsb' 0 8

/-- The pattern that two bytes of the buffer hold in a byte order (table of R33, read from right to left). -/
def heldPattern (le : ByteOrder) (m : Memory) (off : Nat) : Half :=
  match le with
  | .little => Memory.readByte m (off + 1) ++ Memory.readByte m off
  | .big => Memory.readByte m off ++ Memory.readByte m (off + 1)

/-- The magnitude field of R76 by the bits of the pattern: `(E16 << 10) + kept10 + (up ? 1 : 0)` with `kept10` =
`F[51:42]`, round = `F[41]`, sticky = `F[40:0] ≠ 0`. -/
abbrev normalRangeMagnitude (d : Double) : Nat :=
  (unbiased64 d + 15).toNat * 2 ^ 10 + (d.extractLsb' 42 10).toNat +
    (if d.getLsbD 41 = true ∧ (d.extractLsb' 0 41 ≠ 0 ∨ d.getLsbD 42 = true) then 1 else 0)

/-- The operation completes with `y` on the result port: a next state that differs from the state it ran in by that
answer alone (R121), so that the buffer, its length, the requests to come and the earlier answers are as they were. -/
abbrev completesWith (i : Instr) (s : State) (y : Double) : Prop :=
  exec i s = .next { s with responses := .result y :: s.responses }

/-- The operation ends in `BufferRange(off)` (R101): a next state that differs from the state it ran in by that report
alone. -/
abbrev raisesRange (i : Instr) (s : State) (off : Nat) : Prop :=
  exec i s = .next { s with responses := .raised (.bufferRange off) :: s.responses }

end Sys2Proof.Machine
end

