-- ==== Sys2Proof/Certificates/Slice0/Obligations.lean ====
section
/-! DEFINITION. The statements for the provers, from the numbered rules of the spec. `completesWith`, `raisesRange`,
`State.Inv` and the other terms they share are in Safety.lean, the values of patterns in Machine/Values.lean. Every
statement holds for every buffer, every `BUFLEN`, every offset and every pattern unless it says otherwise; none rests
on the content of the reset state's buffer. -/

open Sys2Proof Sys2Proof.Machine

/-! ### Requests and their encoding -/

/-- R47: `op` selects the operation; "(`CMD & mask == match` selects the row)", mask 0x7, matches 0x0 to 0x5, the two
other matches reserved. -/
def Obligations.OpcodeMapSelectsOperation : Prop :=
  ∀ r : Request,
    (r.cmd &&& 0x7 = 0x0 → decode r = .ok (.dec16 (r.a.extractLsb' 0 16))) ∧
    (r.cmd &&& 0x7 = 0x1 → decode r = .ok (.enc16 r.a)) ∧
    (r.cmd &&& 0x7 = 0x2 → decode r = .ok (.cls16 r.a)) ∧
    (r.cmd &&& 0x7 = 0x3 → decode r = .ok (.cls32 r.a)) ∧
    (r.cmd &&& 0x7 = 0x4 →
      decode r = .ok (.lddec16 (if r.cmd.getLsbD 3 then .little else .big) r.off)) ∧
    (r.cmd &&& 0x7 = 0x5 →
      decode r = .ok (.encst16 (if r.cmd.getLsbD 3 then .little else .big) r.off r.a)) ∧
    (r.cmd &&& 0x7 = 0x6 → decode r = .error (.reservedOp 6)) ∧
    (r.cmd &&& 0x7 = 0x7 → decode r = .error (.reservedOp 7))

/-- The command words written out from the table of R47, with the fields of R46: bit 3 `le`, bits 2 to 0 `op`; `a` and
`off` travel beside them. -/
def Obligations.CommandWordsReadAsTheTableSays : Prop :=
  ∀ (a : Double) (off : Nat),
    decode ⟨0b0000, a, off⟩ = .ok (.dec16 (a.extractLsb' 0 16)) ∧
    decode ⟨0b1000, a, off⟩ = .ok (.dec16 (a.extractLsb' 0 16)) ∧
    decode ⟨0b0001, a, off⟩ = .ok (.enc16 a) ∧ decode ⟨0b1001, a, off⟩ = .ok (.enc16 a) ∧
    decode ⟨0b0010, a, off⟩ = .ok (.cls16 a) ∧ decode ⟨0b1010, a, off⟩ = .ok (.cls16 a) ∧
    decode ⟨0b0011, a, off⟩ = .ok (.cls32 a) ∧ decode ⟨0b1011, a, off⟩ = .ok (.cls32 a) ∧
    decode ⟨0b0100, a, off⟩ = .ok (.lddec16 .big off) ∧
    decode ⟨0b1100, a, off⟩ = .ok (.lddec16 .little off) ∧
    decode ⟨0b0101, a, off⟩ = .ok (.encst16 .big off a) ∧
    decode ⟨0b1101, a, off⟩ = .ok (.encst16 .little off a)

/-- Decoding the request an operation encodes to gives the operation back, with every operand at every value (R46 to
R48): no bit of an encoding is dropped. -/
def Obligations.DecodeOfEncodeIsIdentity : Prop :=
  ∀ i : Instr, decode (encode i) = .ok i

/-- The other direction: the encoding of what a request decodes to agrees with the request on its `op` and on every
input that operation reads (the table of R48). -/
def Obligations.EncodeOfDecodeKeepsWhatIsRead : Prop :=
  ∀ (r : Request) (i : Instr), decode r = .ok i →
    opField (encode i).cmd = opField r.cmd ∧
    match i with
    | .dec16 _ => (encode i).a.extractLsb' 0 16 = r.a.extractLsb' 0 16
    | .enc16 _ => (encode i).a = r.a
    | .cls16 _ => (encode i).a = r.a
    | .cls32 _ => (encode i).a = r.a
    | .lddec16 _ _ => (encode i).cmd = r.cmd ∧ (encode i).off = r.off
    | .encst16 _ _ _ => encode i = r

/-- R48: requests that agree on `op` and on the inputs the operation reads have the same step; and "every value of
every read input is legal". -/
def Obligations.IgnoredInputsHaveNoEffect : Prop :=
  ∀ (s : State) (r q : Request) (rest : List Request), opField r.cmd = opField q.cmd →
    (opField r.cmd = 0 → r.a.extractLsb' 0 16 = q.a.extractLsb' 0 16 →
      step { s with requests := r :: rest } = step { s with requests := q :: rest }) ∧
    (opField r.cmd = 1 ∨ opField r.cmd = 2 ∨ opField r.cmd = 3 → r.a = q.a →
      step { s with requests := r :: rest } = step { s with requests := q :: rest }) ∧
    (opField r.cmd = 4 → r.cmd.getLsbD 3 = q.cmd.getLsbD 3 → r.off = q.off →
      step { s with requests := r :: rest } = step { s with requests := q :: rest }) ∧
    (r.wellFormed = true → ∃ i, decode r = .ok i)

/-- R50 with R104: a request with a reserved `op` is refused, whatever its other inputs are. -/
def Obligations.ReservedOperationsAreRefused : Prop :=
  ∀ (s : State) (r : Request) (rest : List Request), s.requests = r :: rest →
    r.cmd = 0x6 ∨ r.cmd = 0x7 ∨ r.cmd = 0xE ∨ r.cmd = 0xF →
      step s = .refused (.reservedOp (opField r.cmd))

/-- A step takes the next request and is `exec` of the operation it decodes to, on the state with that request taken
(R26, R118). -/
def Obligations.StepRunsTheDecodedOperation : Prop :=
  ∀ (s : State) (r : Request) (rest : List Request) (i : Instr), s.requests = r :: rest → decode r = .ok i →
    step s = exec i { s with requests := rest }

/-- With no request pending a step changes nothing. The model's choice (log entry 3): the spec says only that a run
"ends when the requester issues no more" (R121). -/
def Obligations.NoRequestNothingChanges : Prop :=
  ∀ s : State, s.requests = [] → step s = .next s

/-- R54: each alias line stands for the request of the one line it expands to. -/
def Obligations.AliasesExpandToOneOperation : Prop :=
  ∀ (le : ByteOrder) (off a : Nat),
    Line.request ⟨.decodeAlias, some le, some off, none⟩ = Line.request ⟨.lddec16, some le, some off, none⟩ ∧
    Line.request ⟨.encodeAlias, some le, some off, some a⟩ = Line.request ⟨.encst16, some le, some off, some a⟩ ∧
    Line.request ⟨.classifyToHalf, none, none, some a⟩ = Line.request ⟨.cls16, none, none, some a⟩ ∧
    Line.request ⟨.classifyToSingle, none, none, some a⟩ = Line.request ⟨.cls32, none, none, some a⟩

/-- The request of each listing line of R53, its command word written out: "for the value forms the listing encodes
`CMD[3]` as 0". The 0 on an input that the form does not have (`off` of a value form, `a` of a load) is the model's
choice, log entry 13: R53 says nothing of it, R48 calls it ignored. -/
def Obligations.ListingLinesStandForTheirRequests : Prop :=
  ∀ a off : Nat, a < 2 ^ 64 →
    Line.request ⟨.dec16, none, none, some a⟩ = some ⟨0x0, BitVec.ofNat 64 a, 0⟩ ∧
    Line.request ⟨.enc16, none, none, some a⟩ = some ⟨0x1, BitVec.ofNat 64 a, 0⟩ ∧
    Line.request ⟨.cls16, none, none, some a⟩ = some ⟨0x2, BitVec.ofNat 64 a, 0⟩ ∧
    Line.request ⟨.cls32, none, none, some a⟩ = some ⟨0x3, BitVec.ofNat 64 a, 0⟩ ∧
    Line.request ⟨.lddec16, some .little, some off, none⟩ = some ⟨0xC, 0, off⟩ ∧
    Line.request ⟨.lddec16, some .big, some off, none⟩ = some ⟨0x4, 0, off⟩ ∧
    Line.request ⟨.encst16, some .little, some off, some a⟩ = some ⟨0xD, BitVec.ofNat 64 a, off⟩ ∧
    Line.request ⟨.encst16, some .big, some off, some a⟩ = some ⟨0x5, BitVec.ofNat 64 a, off⟩

/-! ### Patterns and their values -/

/-- R3 for the three formats, read off the fields of R2: the five classes and, in rational numbers, the value of each.
`Value.finite` counts in units of 2^−1074 (log entry 12). -/
def Obligations.PatternsMeanWhatTheTableSays : Prop :=
  (∀ h : Half, val16 h =
    valueOf binary16 (h.getLsbD 15) (h.extractLsb' 10 5).toNat (h.extractLsb' 0 10).toNat) ∧
  (∀ x : Single, val32 x =
    valueOf binary32 (x.getLsbD 31) (x.extractLsb' 23 8).toNat (x.extractLsb' 0 23).toNat) ∧
  (∀ d : Double, val64 d =
    valueOf binary64 (d.getLsbD 63) (d.extractLsb' 52 11).toNat (d.extractLsb' 0 52).toNat) ∧
  ∀ T ∈ [binary16, binary32, binary64], ∀ (s : Bool) (e m : Nat),
    (e = 0 → m = 0 → valueOf T s e m = .zero s) ∧
    (e = 0 → m ≠ 0 → ∃ x : Nat, valueOf T s e m = .finite s x ∧
      (x : ℚ) / 2 ^ 1074 = 2 ^ (1 - (T.bias : ℤ)) * ((m : ℚ) / 2 ^ T.w)) ∧
    (0 < e → e < 2 ^ T.ebits - 1 → ∃ x : Nat, valueOf T s e m = .finite s x ∧
      (x : ℚ) / 2 ^ 1074 = 2 ^ ((e : ℤ) - (T.bias : ℤ)) * (1 + (m : ℚ) / 2 ^ T.w)) ∧
    (e = 2 ^ T.ebits - 1 → m = 0 → valueOf T s e m = .infinite s) ∧
    (e = 2 ^ T.ebits - 1 → m ≠ 0 → valueOf T s e m = .nan)

/-! ### float16_decoder -/

/-- R61: the five cases of DEC16 by the bits of the pattern, with the result of each: `{s, 0^63}`; the closed form of
R64 for a subnormal, p the index of the highest set bit of M; `{s, 1^11, 0^52}`; a NaN; `{s, E + 1008, M, 0^42}`. -/
def Obligations.Dec16FiveCases : Prop :=
  ∀ (h : Half) (s : State),
    (h.extractLsb' 10 5 = 0 → h.extractLsb' 0 10 = 0 →
      completesWith (.dec16 h) s (h.extractLsb' 15 1 ++ 0#63)) ∧
    (h.extractLsb' 10 5 = 0 → ∀ p : Nat, 2 ^ p ≤ (h.extractLsb' 0 10).toNat →
      (h.extractLsb' 0 10).toNat < 2 ^ (p + 1) →
      completesWith (.dec16 h) s
        (h.extractLsb' 15 1 ++ BitVec.ofNat 11 (p + 999) ++
          BitVec.ofNat 52 ((h.extractLsb' 0 10).toNat * 2 ^ (52 - p)))) ∧
    (h.extractLsb' 10 5 = 31 → h.extractLsb' 0 10 = 0 →
      completesWith (.dec16 h) s (h.extractLsb' 15 1 ++ 0x7FF#11 ++ 0#52)) ∧
    (h.extractLsb' 10 5 = 31 → h.extractLsb' 0 10 ≠ 0 →
      ∃ y : Double, y.extractLsb' 52 11 = 0x7FF ∧ y.extractLsb' 0 52 ≠ 0 ∧ completesWith (.dec16 h) s y) ∧
    (h.extractLsb' 10 5 ≠ 0 → h.extractLsb' 10 5 ≠ 31 →
      completesWith (.dec16 h) s
        (h.extractLsb' 15 1 ++ BitVec.ofNat 11 ((h.extractLsb' 10 5).toNat + 1008) ++
          h.extractLsb' 0 10 ++ 0#42))

/-- The 64 bits of a decoded NaN, the spec's own decision D8 (R66; log entry 7), which the source does not give. -/
def Obligations.Dec16NaNBits : Prop :=
  ∀ (h : Half) (s : State), h.extractLsb' 10 5 = 31 → h.extractLsb' 0 10 ≠ 0 →
    completesWith (.dec16 h) s 0x7FF8000000000000

/-- R65: DEC16 is exact, and off NaN its result is the only binary64 pattern of the value. -/
def Obligations.Dec16IsExact : Prop :=
  ∀ (h : Half) (s : State), ∃ y : Double, completesWith (.dec16 h) s y ∧ val64 y = val16 h ∧
    (val16 h ≠ .nan → ∀ d : Double, val64 d = val16 h → d = y)

/-- R68 item 3: different patterns that are not NaN decode to different results. -/
def Obligations.Dec16InjectiveOffNaN : Prop :=
  ∀ (s : State) (h₁ h₂ : Half) (y : Double), isNaN16 h₁ = false → isNaN16 h₂ = false →
    completesWith (.dec16 h₁) s y → completesWith (.dec16 h₂) s y → h₁ = h₂

/-- R68 item 7: with the same sign, the order of the 15 low bits is the order of the decoded magnitudes. -/
def Obligations.Dec16KeepsTheOrderOfMagnitudes : Prop :=
  ∀ (s : State) (h₁ h₂ : Half) (y₁ y₂ : Double), isNaN16 h₁ = false → isNaN16 h₂ = false →
    sign16 h₁ = sign16 h₂ → completesWith (.dec16 h₁) s y₁ → completesWith (.dec16 h₂) s y₂ →
      (h₁.toNat % 2 ^ 15 < h₂.toNat % 2 ^ 15 ↔ (val64 y₁).magnitude < (val64 y₂).magnitude)

/-- R63 and R64: the route through binary32 gives the same 64 bits for every pattern, and the normalising loop gives
the closed form, after 10 − p rounds. -/
def Obligations.DecoderRoutesAgree : Prop :=
  (∀ (h : Half) (s : State), completesWith (.dec16 h) s (decodeVia32 h)) ∧
  (∀ m p : Nat, p ≤ 9 → 2 ^ p ≤ m → m < 2 ^ (p + 1) →
    normalizeSubnormal m = (m * 2 ^ (10 - p), -14 - ((10 - p : Nat) : Int)))

/-! ### float16_encoder -/

/-- R71: every NaN pattern encodes as 0x7E00, and the encoder emits no other NaN pattern. -/
def Obligations.Enc16CanonicalNaN : Prop :=
  (∀ (d : Double) (s : State), d.extractLsb' 52 11 = 0x7FF → d.extractLsb' 0 52 ≠ 0 →
    completesWith (.enc16 d) s 0x7E00) ∧
  (∀ (d : Double) (s : State) (y : Double), completesWith (.enc16 d) s y →
    isNaN16 (y.extractLsb' 0 16) = true → y = 0x7E00)

/-- R72 and R73: an infinity encodes as the infinity of its sign, a zero as the zero of its sign. -/
def Obligations.Enc16InfinitiesAndZeros : Prop :=
  ∀ (d : Double) (s : State),
    (d.extractLsb' 52 11 = 0x7FF → d.extractLsb' 0 52 = 0 →
      completesWith (.enc16 d) s (0#48 ++ (d.extractLsb' 63 1 ++ 0b11111#5 ++ 0#10))) ∧
    (d.extractLsb' 52 11 = 0 → d.extractLsb' 0 52 = 0 →
      completesWith (.enc16 d) s (0#48 ++ (d.extractLsb' 63 1 ++ 0#15)))

/-- R78: a subnormal binary64 pattern encodes as the zero of its sign. -/
def Obligations.Enc16SubnormalInputsGiveZero : Prop :=
  ∀ (d : Double) (s : State), d.extractLsb' 52 11 = 0 → d.extractLsb' 0 52 ≠ 0 →
    completesWith (.enc16 d) s (0#48 ++ (d.extractLsb' 63 1 ++ 0#15))

/-- R74: a finite input with e > 15 encodes as the infinity of its sign; these are the magnitudes from 2^16 up; the
magnitudes from 65520 up to there have e = 15 and reach infinity too. -/
def Obligations.Enc16OverflowSaturates : Prop :=
  ∀ (d : Double) (s : State), d.extractLsb' 52 11 ≠ 0x7FF →
    (unbiased64 d > 15 ↔ (val64 d).magnitude ≥ powerOfTwo 16) ∧
    (unbiased64 d > 15 →
      completesWith (.enc16 d) s (0#48 ++ (d.extractLsb' 63 1 ++ 0b11111#5 ++ 0#10))) ∧
    (65520 * powerOfTwo 0 ≤ (val64 d).magnitude → (val64 d).magnitude < powerOfTwo 16 →
      unbiased64 d = 15 ∧
      completesWith (.enc16 d) s (0#48 ++ (d.extractLsb' 63 1 ++ 0b11111#5 ++ 0#10)))

/-- R76: −14 ≤ e ≤ 15. The sum is at most 0x7C00, so the sign is never disturbed, and the result is `{s, r15}`. -/
def Obligations.Enc16NormalRange : Prop :=
  ∀ (d : Double) (s : State), -14 ≤ unbiased64 d → unbiased64 d ≤ 15 →
    normalRangeMagnitude d ≤ 0x7C00 ∧
    completesWith (.enc16 d) s
      (0#48 ++ (d.extractLsb' 63 1 ++ BitVec.ofNat 15 (normalRangeMagnitude d)))

/-- R77: e < −14. With deficit = −14 − e: above 11 the zero of the sign; else `RNE(sig, 42 + deficit)`, at most 0x400;
at 11 zero for the tie and the smallest subnormal above it. -/
def Obligations.Enc16SubnormalRange : Prop :=
  ∀ (d : Double) (s : State) (deficit : Nat), d.extractLsb' 52 11 ≠ 0 → unbiased64 d = -14 - (deficit : Int) →
    1 ≤ deficit →
    (deficit > 11 → completesWith (.enc16 d) s (0#48 ++ (d.extractLsb' 63 1 ++ 0#15))) ∧
    (deficit ≤ 11 → rne (2 ^ 52 + man64 d) (42 + deficit) ≤ 0x400 ∧
      completesWith (.enc16 d) s
        (0#48 ++ (d.extractLsb' 63 1 ++ BitVec.ofNat 15 (rne (2 ^ 52 + man64 d) (42 + deficit))))) ∧
    (deficit = 11 → d.extractLsb' 0 52 = 0 →
      completesWith (.enc16 d) s (0#48 ++ (d.extractLsb' 63 1 ++ 0#15))) ∧
    (deficit = 11 → d.extractLsb' 0 52 ≠ 0 →
      completesWith (.enc16 d) s (0#48 ++ (d.extractLsb' 63 1 ++ 1#15)))

/-- R75: `RNE(sig, sh)` is the integer nearest to `sig / 2^sh`, the even one of two equally near, and 0 when the shift
is past the whole number. -/
def Obligations.RoundingIsNearestTiesToEven : Prop :=
  ∀ sig sh : Nat, 1 ≤ sh →
    2 * (rne sig sh * 2 ^ sh) ≤ 2 * sig + 2 ^ sh ∧
    2 * sig ≤ 2 * (rne sig sh * 2 ^ sh) + 2 ^ sh ∧
    (2 * (rne sig sh * 2 ^ sh) = 2 * sig + 2 ^ sh ∨ 2 * sig = 2 * (rne sig sh * 2 ^ sh) + 2 ^ sh →
      rne sig sh % 2 = 0) ∧
    (sig < 2 ^ (sh - 1) → rne sig sh = 0)

/-- R80, ENC16 as a function of values: the result is the binary16 value nearest to the input, ties to even; for a
finite nonzero input it is infinite exactly from 65520 up and zero exactly up to 2^−25, with the input's sign. -/
def Obligations.Enc16IsCorrectRounding : Prop :=
  ∀ (d : Double) (s : State), ∃ h : Half, completesWith (.enc16 d) s (h.setWidth 64) ∧
    val16 h = roundTo binary16 (val64 d) ∧
    (∀ neg m, val64 d = .finite neg m →
      (val16 h = .infinite neg ↔ 65520 * powerOfTwo 0 ≤ m) ∧
      (val16 h = .zero neg ↔ m ≤ powerOfTwo (-25)) ∧ sign16 h = neg)

/-- R82 item 5: off NaN, changing the sign of the input changes the sign of the result and nothing else. -/
def Obligations.Enc16SignSymmetry : Prop :=
  ∀ (d : Double) (s : State) (y : Double), isNaN64 d = false → completesWith (.enc16 d) s y →
    completesWith (.enc16 (d ^^^ 0x8000000000000000)) s (y ^^^ 0x8000)

/-- R82 item 6: off NaN, ENC16 keeps the order of values. -/
def Obligations.Enc16IsMonotone : Prop :=
  ∀ (s : State) (d₁ d₂ : Double) (h₁ h₂ : Half),
    completesWith (.enc16 d₁) s (h₁.setWidth 64) → completesWith (.enc16 d₂) s (h₂.setWidth 64) →
    (val64 d₁).atMost (val64 d₂) → (val16 h₁).atMost (val16 h₂)

/-- R68 items 4 and 5, R82 items 1 and 2: encoding what DEC16 gives gives the pattern back, and 0x7E00 for every NaN. -/
def Obligations.EncodeOfDecodedPatternRoundTrips : Prop :=
  ∀ (p : Half) (s t : State), ∃ y : Double, completesWith (.dec16 p) s y ∧
    (isNaN16 p = false → completesWith (.enc16 y) t (p.setWidth 64)) ∧
    (isNaN16 p = true → completesWith (.enc16 y) t 0x7E00)

/-- R4: the core does not tell NaN patterns apart on input and shows one NaN pattern on output. -/
def Obligations.OneNaN : Prop :=
  (∀ (h₁ h₂ : Half) (s : State), isNaN16 h₁ = true → isNaN16 h₂ = true →
    ∃ y, isNaN64 y = true ∧ completesWith (.dec16 h₁) s y ∧ completesWith (.dec16 h₂) s y) ∧
  (∀ (d₁ d₂ : Double) (le : ByteOrder) (off : Nat) (s : State), isNaN64 d₁ = true → isNaN64 d₂ = true →
    exec (.enc16 d₁) s = exec (.enc16 d₂) s ∧ exec (.cls16 d₁) s = exec (.cls16 d₂) s ∧
    exec (.cls32 d₁) s = exec (.cls32 d₂) s ∧ exec (.encst16 le off d₁) s = exec (.encst16 le off d₂) s) ∧
  (∀ (h : Half) (s : State) (y : Double), completesWith (.dec16 h) s y → isNaN64 y = true → y = canonNaN64) ∧
  (∀ (d : Double) (s : State) (y : Double), completesWith (.enc16 d) s y →
    isNaN16 (y.extractLsb' 0 16) = true → y = 0x7E00)

/-! ### The buffer -/

/-- R33 for a store: in an admitted ENCST16 the pattern of ENC16 goes to `Buf[off]` and `Buf[off+1]` in the order of
`le`, `y` shows it, and every other byte, the length, the requests and the earlier answers are as they were. -/
def Obligations.Encst16StoresInByteOrder : Prop :=
  ∀ (s : State) (le : ByteOrder) (off : Nat) (d : Double), off + 2 ≤ s.bufLen →
    ∃ (t : State) (h : Half), completesWith (.enc16 d) s (h.setWidth 64) ∧
      exec (.encst16 le off d) s = .next t ∧
      t.responses = .result (h.setWidth 64) :: s.responses ∧ t.bufLen = s.bufLen ∧ t.requests = s.requests ∧
      (le = .little → Memory.readByte t.buf off = h.extractLsb' 0 8 ∧
        Memory.readByte t.buf (off + 1) = h.extractLsb' 8 8) ∧
      (le = .big → Memory.readByte t.buf off = h.extractLsb' 8 8 ∧
        Memory.readByte t.buf (off + 1) = h.extractLsb' 0 8) ∧
      ∀ k, ¬ touches off k → Memory.readByte t.buf k = Memory.readByte s.buf k

/-- An admitted LDDEC16, at an odd or even offset, completes with the DEC16 result of the pattern the two bytes hold in
the order of `le` (R67 with R33, R35), and changes nothing. -/
def Obligations.Lddec16ReadsInByteOrder : Prop :=
  ∀ (s : State) (off : Nat), off + 2 ≤ s.bufLen →
    (∀ y, completesWith (.dec16 (Memory.readByte s.buf (off + 1) ++ Memory.readByte s.buf off)) s y →
      completesWith (.lddec16 .little off) s y) ∧
    (∀ y, completesWith (.dec16 (Memory.readByte s.buf off ++ Memory.readByte s.buf (off + 1))) s y →
      completesWith (.lddec16 .big off) s y) ∧
    (∃ y z, completesWith (.lddec16 .little off) s y ∧ completesWith (.lddec16 .big off) s z)

/-- R37 and R101: an access that is not admitted is reported as `BufferRange(off)`, code 1, on `fault`, with no value
on `y` and nothing else changed. That it is a next state is the model's choice (log entry 6). -/
def Obligations.OutOfRangeIsReported : Prop :=
  ∀ (s : State) (le : ByteOrder) (off : Nat) (d : Double), off + 2 > s.bufLen →
    raisesRange (.lddec16 le off) s off ∧ raisesRange (.encst16 le off d) s off ∧
    (∀ t, exec (.lddec16 le off) s = .next t ∨ exec (.encst16 le off d) s = .next t →
      t.faultPort = some 1 ∧ t.yPort = none) ∧
    (Exc.bufferRange off).code = 1 ∧ (Exc.bufferRange off).info = off

/-- R106: after a `BufferRange` the buffer is as it was and "the same request against the same `Buf` fails the same
way". -/
def Obligations.SameRequestFailsTheSameWay : Prop :=
  ∀ (i : Instr) (s t : State) (off : Nat), exec i s = .next t →
    t.responses = .raised (.bufferRange off) :: s.responses →
      t.buf = s.buf ∧ off + 2 > s.bufLen ∧ raisesRange i t off

/-- R34 and R81: a LDDEC16 after an admitted ENCST16 to the same offset gives the decoding of the encoded pattern, and
in the other byte order the decoding of the pattern with its bytes exchanged. -/
def Obligations.StoreThenLoad : Prop :=
  ∀ (s : State) (le : ByteOrder) (off : Nat) (d : Double), off + 2 ≤ s.bufLen →
    ∃ (t : State) (h : Half) (y z : Double), completesWith (.enc16 d) s (h.setWidth 64) ∧
      exec (.encst16 le off d) s = .next t ∧
      completesWith (.dec16 h) t y ∧ completesWith (.lddec16 le off) t y ∧
      completesWith (.dec16 (h.extractLsb' 0 8 ++ h.extractLsb' 8 8)) t z ∧
      completesWith (.lddec16 (if le = .little then .big else .little) off) t z

/-- R41 (a) to (d): after two stores each byte is the later store's, else the earlier one's, else as it was; a load
between them gives what the first left, and its answer stays when the second store follows. -/
def Obligations.AccessesHappenInRequestOrder : Prop :=
  ∀ (s : State) (le₁ le₂ : ByteOrder) (off₁ off₂ : Nat) (d₁ d₂ : Double),
    off₁ + 2 ≤ s.bufLen → off₂ + 2 ≤ s.bufLen →
    ∃ t u : State, exec (.encst16 le₁ off₁ d₁) s = .next t ∧ exec (.encst16 le₂ off₂ d₂) t = .next u ∧
      (∀ k, touches off₂ k → Memory.readByte u.buf k = storedByte le₂ off₂ (encodePattern d₂) k) ∧
      (∀ k, touches off₁ k → ¬ touches off₂ k →
        Memory.readByte u.buf k = storedByte le₁ off₁ (encodePattern d₁) k) ∧
      (∀ k, ¬ touches off₁ k → ¬ touches off₂ k → Memory.readByte u.buf k = Memory.readByte s.buf k) ∧
      (∀ (le : ByteOrder) (off : Nat), off + 2 ≤ s.bufLen →
        ∃ v w : State, exec (.lddec16 le off) t = .next v ∧ exec (.encst16 le₂ off₂ d₂) v = .next w ∧
          w.buf = u.buf ∧ ∃ y, completesWith (.dec16 (heldPattern le t.buf off)) t y ∧
            w.responses = .result ((encodePattern d₂).setWidth 64) :: .result y :: t.responses)

/-- R38, "Reads have no side effects and are idempotent", over every offset: a load leaves the buffer as it was and gives
the same answer again; a store repeated leaves the buffer as the first one left it. That an access which is not admitted
answers a next state too, with its report as the answer, is the model's choice, log entry 6. -/
def Obligations.BufferAccessesAreIdempotent : Prop :=
  (∀ (s : State) (le : ByteOrder) (off : Nat), ∃ (t u : State) (r : Response),
    exec (.lddec16 le off) s = .next t ∧ exec (.lddec16 le off) t = .next u ∧
    t.buf = s.buf ∧ u.buf = s.buf ∧ t.responses = r :: s.responses ∧ u.responses = r :: r :: s.responses) ∧
  (∀ (s : State) (le : ByteOrder) (off : Nat) (d : Double), ∃ t u : State,
    exec (.encst16 le off d) s = .next t ∧ exec (.encst16 le off d) t = .next u ∧ u.buf = t.buf)

/-- R32: the two bytes of an access are `Buf[off]` and `Buf[off+1]`, with nothing added to `off`: a store leaves every
other byte as it was, a load depends on no other byte. -/
def Obligations.AccessTouchesTwoBytes : Prop :=
  (∀ (s t : State) (le : ByteOrder) (off : Nat) (d : Double), exec (.encst16 le off d) s = .next t →
    ∀ k, ¬ touches off k → Memory.readByte t.buf k = Memory.readByte s.buf k) ∧
  (∀ (s t : State) (le : ByteOrder) (off : Nat) (y : Double), s.bufLen = t.bufLen →
    (∀ k, touches off k → Memory.readByte s.buf k = Memory.readByte t.buf k) →
    completesWith (.lddec16 le off) s y → completesWith (.lddec16 le off) t y)

/-! ### Every operation -/

/-- R100: DEC16, ENC16, CLS16 and CLS32 "always complete with a result", the same in every state: they read and write
nothing but their operand and the answer. -/
def Obligations.ValueFormsAlwaysComplete : Prop :=
  (∀ h : Half, ∃ y, ∀ s, completesWith (.dec16 h) s y) ∧
  (∀ d : Double, ∃ y, ∀ s, completesWith (.enc16 d) s y) ∧
  (∀ d : Double, ∃ y, ∀ s, completesWith (.cls16 d) s y) ∧
  (∀ d : Double, ∃ y, ∀ s, completesWith (.cls32 d) s y)

/-- The frame of the six operations: one answer is added and the earlier ones stay, the length of the buffer and the
requests to come stay; the buffer stays but for ENCST16, and there every byte stays but the two of an admitted
store (R24, R31, R36). -/
def Obligations.FrameOfEveryOperation : Prop :=
  ∀ (i : Instr) (s t : State), exec i s = .next t →
    t.bufLen = s.bufLen ∧ t.requests = s.requests ∧ (∃ r, t.responses = r :: s.responses) ∧
    match i with
    | .dec16 _ => t.buf = s.buf
    | .enc16 _ => t.buf = s.buf
    | .cls16 _ => t.buf = s.buf
    | .cls32 _ => t.buf = s.buf
    | .lddec16 _ _ => t.buf = s.buf
    | .encst16 _ off _ =>
      (off + 2 > s.bufLen → t.buf = s.buf) ∧
      ∀ k, ¬ touches off k → Memory.readByte t.buf k = Memory.readByte s.buf k

/-- R29: the same operation "against the same `Buf`" gives the same `y`, `fault` and next `Buf`, whatever came before
and whatever is still to come. -/
def Obligations.SameRequestSameAnswer : Prop :=
  ∀ (i : Instr) (s q t : State), s.buf = q.buf → s.bufLen = q.bufLen → exec i s = .next t →
    ∃ u, exec i q = .next u ∧ u.buf = t.buf ∧ u.bufLen = t.bufLen ∧ u.yPort = t.yPort ∧
      u.faultPort = t.faultPort ∧ u.responses.head? = t.responses.head?

/-- R49: where a result sits on `y`; and `y` carries no value when the operation ended in `BufferRange`. -/
def Obligations.ResultsAreZeroExtended : Prop :=
  ∀ (i : Instr) (s t : State), exec i s = .next t →
    (t.faultPort = some 1 → t.yPort = none) ∧
    ∀ y, t.yPort = some y →
      match i with
      | .dec16 h => y = decodePattern h
      | .enc16 d => y.extractLsb' 0 16 = encodePattern d ∧ y.extractLsb' 16 48 = 0
      | .cls16 d => y.extractLsb' 0 2 = labelCode (classify binary16 d) ∧ y.extractLsb' 2 62 = 0
      | .cls32 d => y.extractLsb' 0 2 = labelCode (classify binary32 d) ∧ y.extractLsb' 2 62 = 0
      | .lddec16 le off => y = decodePattern (heldPattern le s.buf off)
      | .encst16 _ _ d => y.extractLsb' 0 16 = encodePattern d ∧ y.extractLsb' 16 48 = 0

/-! ### float_precision_classifier -/

/-- R86: NaN, infinities and zeros are `exact` for both targets. -/
def Obligations.ClsSpecialInputsAreExact : Prop :=
  ∀ (d : Double) (s : State),
    d.extractLsb' 52 11 = 0x7FF ∨ (d.extractLsb' 52 11 = 0 ∧ d.extractLsb' 0 52 = 0) →
      completesWith (.cls16 d) s 0 ∧ completesWith (.cls32 d) s 0

/-- R87: the significant-bit count is 0 for an all-zero field, else 52 − t with t the index of the lowest set bit. -/
def Obligations.SignificantBitCount : Prop :=
  significantBits 0 = 0 ∧
  ∀ f : Nat, 0 < f → f < 2 ^ 52 →
    ∃ t : Nat, t ≤ 51 ∧ 2 ^ t ∣ f ∧ ¬ 2 ^ (t + 1) ∣ f ∧ significantBits f = 52 - t

/-- R88, R90, R91: overflow by the exponent alone; in the subnormal range of the target exact when shortfall + n ≤ w;
in the normal range exact when n ≤ w; else inexact. -/
def Obligations.ClsStepsByExponent : Prop :=
  ∀ (d : Double) (s : State), d.extractLsb' 52 11 ≠ 0x7FF →
    (unbiased64 d > 15 → completesWith (.cls16 d) s 3) ∧
    (-24 ≤ unbiased64 d → unbiased64 d < -14 →
      completesWith (.cls16 d) s (if -14 - unbiased64 d + significantBits (man64 d) ≤ 10 then 0 else 1)) ∧
    (-14 ≤ unbiased64 d → unbiased64 d ≤ 15 →
      completesWith (.cls16 d) s (if significantBits (man64 d) ≤ 10 then 0 else 1)) ∧
    (unbiased64 d > 127 → completesWith (.cls32 d) s 3) ∧
    (-149 ≤ unbiased64 d → unbiased64 d < -126 →
      completesWith (.cls32 d) s (if -126 - unbiased64 d + significantBits (man64 d) ≤ 23 then 0 else 1)) ∧
    (-126 ≤ unbiased64 d → unbiased64 d ≤ 127 →
      completesWith (.cls32 d) s (if significantBits (man64 d) ≤ 23 then 0 else 1))

/-- R89: a nonzero input whose exponent is below emin − w is `underflow`; a subnormal binary64 pattern is so for both
targets. -/
def Obligations.ClsUnderflow : Prop :=
  ∀ (d : Double) (s : State), ¬ (d.extractLsb' 52 11 = 0 ∧ d.extractLsb' 0 52 = 0) →
    (unbiased64 d < -24 → completesWith (.cls16 d) s 2) ∧
    (unbiased64 d < -149 → completesWith (.cls32 d) s 2) ∧
    (d.extractLsb' 52 11 = 0 → completesWith (.cls16 d) s 2 ∧ completesWith (.cls32 d) s 2)

/-- R6: the four labels and their codes, and the classifier shows one of them and nothing else. -/
def Obligations.ClsShowsOneOfFourCodes : Prop :=
  labelCode .exact = 0 ∧ labelCode .inexact = 1 ∧ labelCode .underflow = 2 ∧ labelCode .overflow = 3 ∧
  ∀ (d : Double) (s : State),
    (∃ l : Label, completesWith (.cls16 d) s ((labelCode l).setWidth 64)) ∧
    (∃ l : Label, completesWith (.cls32 d) s ((labelCode l).setWidth 64))

/-- R85: the sign bit has no effect on the label, and the label depends on the pattern alone. -/
def Obligations.ClsIgnoresTheSign : Prop :=
  ∀ d : Double, ∃ l₁ l₂ : Label, ∀ s : State,
    completesWith (.cls16 d) s ((labelCode l₁).setWidth 64) ∧
    completesWith (.cls16 (d ^^^ 0x8000000000000000)) s ((labelCode l₁).setWidth 64) ∧
    completesWith (.cls32 d) s ((labelCode l₂).setWidth 64) ∧
    completesWith (.cls32 (d ^^^ 0x8000000000000000)) s ((labelCode l₂).setWidth 64)

/-- R94, the table: what each label of CLS16 guarantees of what ENC16 and then DEC16 give for the same input. -/
def Obligations.Cls16AgreesWithEnc16 : Prop :=
  ∀ (d : Double) (s : State), ∃ (l : Label) (h : Half) (y : Double),
    completesWith (.cls16 d) s ((labelCode l).setWidth 64) ∧
    completesWith (.enc16 d) s (h.setWidth 64) ∧ completesWith (.dec16 h) s y ∧
    (l = .exact → val64 y = val64 d ∧ (isNaN64 d = false → y = d)) ∧
    (l = .inexact → val64 y ≠ val64 d) ∧
    (l = .overflow → h = d.extractLsb' 63 1 ++ 0x7C00#15) ∧
    (l = .underflow → (h.extractLsb' 0 15 = 0 ∨ h.extractLsb' 0 15 = 1) ∧ h.extractLsb' 15 1 = d.extractLsb' 63 1)

/-- R94, "exact is also necessary": a finite nonzero input is `exact` exactly when its value is a binary16 value. -/
def Obligations.Cls16ExactIffBinary16Value : Prop :=
  ∀ (d : Double) (s : State) (neg : Bool) (m : Nat), val64 d = .finite neg m →
    (completesWith (.cls16 d) s 0 ↔ ∃ h : Half, val16 h = val64 d)

/-- R94 for CLS32, "with a round-to-nearest-even binary32 narrowing in place of ENC16", which no operation of the core
performs: the narrowing is `roundTo binary32`. -/
def Obligations.Cls32AgreesWithNarrowing : Prop :=
  ∀ (d : Double) (s : State), ∃ l : Label, completesWith (.cls32 d) s ((labelCode l).setWidth 64) ∧
    (l = .exact → roundTo binary32 (val64 d) = val64 d) ∧
    (l = .inexact → roundTo binary32 (val64 d) ≠ val64 d) ∧
    (l = .overflow → roundTo binary32 (val64 d) = .infinite (sign64 d)) ∧
    (l = .underflow → roundTo binary32 (val64 d) = .zero (sign64 d) ∨
      roundTo binary32 (val64 d) = .finite (sign64 d) (powerOfTwo (-149)))

/-- R95: ENC16 gives an infinity for 65520 ≤ magnitude < 65536 and the label is `inexact`; `underflow` goes with the
smallest subnormal above 2^−25 and with zero up to it. -/
def Obligations.LabelsPromiseNoConverse : Prop :=
  ∀ (d : Double) (s : State) (neg : Bool) (m : Nat), val64 d = .finite neg m →
    (65520 * powerOfTwo 0 ≤ m → m < powerOfTwo 16 →
      completesWith (.cls16 d) s 1 ∧
      completesWith (.enc16 d) s (0#48 ++ (BitVec.ofBool neg ++ 0x7C00#15))) ∧
    (powerOfTwo (-25) < m → m < powerOfTwo (-24) →
      completesWith (.cls16 d) s 2 ∧ completesWith (.enc16 d) s (0#48 ++ (BitVec.ofBool neg ++ 1#15))) ∧
    (m ≤ powerOfTwo (-25) →
      completesWith (.cls16 d) s 2 ∧ completesWith (.enc16 d) s (0#48 ++ (BitVec.ofBool neg ++ 0#15)))

/-- R68 item 8: whatever DEC16 gives is `exact` for both targets. -/
def Obligations.DecodedValuesAreExact : Prop :=
  ∀ (h : Half) (s t : State), ∃ y, completesWith (.dec16 h) s y ∧ completesWith (.cls16 y) t 0 ∧
    completesWith (.cls32 y) t 0

/-! ### The machine -/

/-- Every step keeps the buffer in canonical form and inside its length. -/
def Obligations.StepKeepsTheBufferWellFormed : Prop :=
  ∀ s t : State, s.Inv → step s = .next t → t.Inv

/-- The reset state meets the invariant. -/
def Obligations.ResetBufferIsWellFormed : Prop := State.reset.Inv

/-- Every step keeps it true that each `BufferRange` the requester was told of was an access out of range (R37,
R105). -/
def Obligations.StepKeepsReportsTrue : Prop :=
  ∀ s t : State, s.ReportsAreTrue → step s = .next t → t.ReportsAreTrue

/-- R121: a request ends in exactly one of three ways: it completes with a `y`; it ends in `BufferRange` with the
buffer as it was; it is refused because its `op` is reserved. -/
def Obligations.EveryRequestEndsOneOfThreeWays : Prop :=
  ∀ (s : State) (r : Request) (rest : List Request), s.requests = r :: rest →
    (r.wellFormed = true → ∃ t, step s = .next t ∧ t.requests = rest ∧
      ((∃ y, t.responses = .result y :: s.responses) ∨
        (t.responses = .raised (.bufferRange r.off) :: s.responses ∧ t.buf = s.buf ∧ r.off + 2 > s.bufLen))) ∧
    (r.wellFormed = false → ∃ op, step s = .refused (.reservedOp op))

/-- A run whose pending requests all select an operation answers every one of them, in as many steps, and then has none
pending; the answers it had stay (R120 "every operation ends", R121). That an access which is not admitted is answered
too, as a next state after which the run goes on, is the model's choice, log entry 6; the list of pending requests is
that of log entry 1. -/
def Obligations.RunAnswersEveryRequest : Prop :=
  ∀ s : State, (∀ r ∈ s.requests, r.wellFormed = true) →
    ∃ (t : State) (new : List Response), Host.Core.run Sys2Proof.core s.requests.length s = .next t ∧
      t.requests = [] ∧ t.responses = new ++ s.responses ∧ new.length = s.requests.length ∧
      t.bufLen = s.bufLen

/-- R41 (d) for runs of any length: a byte that no pending ENCST16 touches keeps its value, whatever else is
requested. -/
def Obligations.RunKeepsUntouchedBytes : Prop :=
  ∀ (n : Nat) (s t : State) (k : Nat),
    (∀ r ∈ s.requests, ∀ le off d, decode r = .ok (.encst16 le off d) → ¬ touches off k) →
    Host.Core.run Sys2Proof.core n s = .next t → Memory.readByte t.buf k = Memory.readByte s.buf k

/-- What reset leaves (R28, R115): no request, no value of `y` and `fault`, and a buffer of which nothing is known:
each byte is the free value at its offset (log entries 1, 2 and 5). -/
def Obligations.ResetKnowsNothing : Prop :=
  State.reset.requests = [] ∧ State.reset.yPort = none ∧ State.reset.faultPort = none ∧
  ∀ k, Memory.readByte State.reset.buf k = Config.initialByte k

/-- R116: a load of bytes that nothing has placed or written completes with the decoding of the initial content, the
free value of log entry 5; it is no fault. -/
def Obligations.UnwrittenBytesAreRead : Prop :=
  ∀ (s : State) (off : Nat), off + 2 ≤ s.bufLen → Memory.lookup s.buf off = none →
    Memory.lookup s.buf (off + 1) = none →
    ∃ y, completesWith (.dec16 (Config.initialByte (off + 1) ++ Config.initialByte off)) s y ∧
      completesWith (.lddec16 .little off) s y
end

