-- ==== Sys2Proof/Laws/Arith.lean ====
section
/-! SUPPORT. What the small arithmetic functions of the rules compute: the highest and the lowest set bit, the bits of
the rounding rule as divisions, the rational a value stands for. -/

namespace Sys2Proof.Machine

/-- `msb(M)` is the p with 2^p ≤ M < 2^(p+1) (spec/00_scope.md section 5.1). -/
theorem msb_bounds {m : Nat} (h : m ≠ 0) : 2 ^ msb m ≤ m ∧ m < 2 ^ (msb m + 1) :=
  ⟨Nat.log2_self_le h, Nat.lt_log2_self⟩

/-- Counting stops at the lowest set bit: 2^ctz divides the number, twice that does not. -/
theorem ctzUpTo_spec {k n : Nat} (h : n ≠ 0) (hk : n < 2 ^ k) :
    2 ^ ctzUpTo k n ∣ n ∧ n / 2 ^ ctzUpTo k n % 2 = 1 ∧ ctzUpTo k n < k := by
  induction k generalizing n with
  | zero => omega
  | succ k ih =>
    by_cases hodd : n % 2 = 1
    · simp [ctzUpTo, hodd]
    · have hhalf : n / 2 ≠ 0 := by omega
      have hlt : n / 2 < 2 ^ k := by omega
      obtain ⟨hdvd, hbit, hle⟩ := ih hhalf hlt
      have hctz : ctzUpTo (k + 1) n = ctzUpTo k (n / 2) + 1 := by simp [ctzUpTo, hodd, Nat.add_comm]
      refine ⟨?_, ?_, by omega⟩
      · rw [hctz, pow_succ]
        obtain ⟨c, hc⟩ := hdvd
        refine ⟨c, ?_⟩
        calc n = 2 * (n / 2) := by omega
          _ = 2 * (2 ^ ctzUpTo k (n / 2) * c) := by rw [← hc]
          _ = _ := by ring
      · rw [hctz, pow_succ, Nat.mul_comm, ← Nat.div_div_eq_div_mul]
        exact hbit

/-- The bits of the rounding rule as divisions: quotient, half bit, remainder below it (R75). -/
theorem roundsUp_iff (sig sh : Nat) :
    roundsUp sig sh = true ↔
      sig / 2 ^ (sh - 1) % 2 = 1 ∧ (sig % 2 ^ (sh - 1) ≠ 0 ∨ sig / 2 ^ sh % 2 = 1) := by
  simp [roundsUp, roundBit, stickyBits, keptValue, Nat.shiftRight_eq_div_pow]

/-- Rounding either truncates or adds one to the quotient (R75). -/
theorem rne_cases (sig sh : Nat) :
    (roundsUp sig sh = true ∧ rne sig sh = sig / 2 ^ sh + 1) ∨
      (roundsUp sig sh = false ∧ rne sig sh = sig / 2 ^ sh) := by
  cases h : roundsUp sig sh <;> simp [rne, h, keptValue, Nat.shiftRight_eq_div_pow]

/-- The magnitude of a value as a rational number (log entry 12). -/
def magnitudeRat (m : Nat) : ℚ := (m : ℚ) / 2 ^ 1074

/-- The whole numbers of `valueOf` are R3's subnormal magnitudes, 2^(1 − bias) × (M / 2^w), for each format whose
unit is 2^−1074 or more. -/
theorem subnormal_magnitude (T : Format) (hT : T.bias + T.w ≤ 1075) (m : Nat) :
    magnitudeRat (m * 2 ^ unitShift T) = (2 : ℚ) ^ (1 - (T.bias : ℤ)) * (m / 2 ^ T.w) := by
  have hz : (2 : ℚ) ^ (1 - (T.bias : ℤ)) = 2 ^ unitShift T * 2 ^ T.w / 2 ^ 1074 := by
    rw [eq_div_iff (by positivity), ← pow_add, ← zpow_natCast, ← zpow_natCast, ← zpow_add₀ two_ne_zero]
    congr 1
    simp only [unitShift]
    omega
  rw [hz, magnitudeRat]
  push_cast
  field_simp

/-- The whole numbers of `valueOf` are R3's normal magnitudes, 2^(E − bias) × (1 + M / 2^w). -/
theorem normal_magnitude (T : Format) (hT : T.bias + T.w ≤ 1075) {e : Nat} (he : e ≠ 0) (m : Nat) :
    magnitudeRat ((2 ^ T.w + m) * 2 ^ (e - 1 + unitShift T)) =
      (2 : ℚ) ^ ((e : ℤ) - T.bias) * (1 + m / 2 ^ T.w) := by
  have hz : (2 : ℚ) ^ ((e : ℤ) - (T.bias : ℤ)) = 2 ^ (e - 1 + unitShift T) * 2 ^ T.w / 2 ^ 1074 := by
    rw [eq_div_iff (by positivity), ← pow_add, ← zpow_natCast, ← zpow_natCast, ← zpow_add₀ two_ne_zero]
    congr 1
    simp only [unitShift]
    omega
  rw [hz, magnitudeRat]
  push_cast
  field_simp

end Sys2Proof.Machine
end

