-- ==== Sys2Proof/Laws/Memory.lean ====
section
/-! SUPPORT. The cells of the buffer: what a read after a write gives, that a write keeps the canonical form, that
equal contents are equal lists. -/

namespace Sys2Proof.Machine

theorem lookup_writeByte (m : Memory) (k j : Nat) (b : Byte) :
    Memory.lookup (Memory.writeByte m k b) j = if j = k then some b else Memory.lookup m j := by
  induction m with
  | nil => simp [Memory.writeByte, Memory.lookup, eq_comm]
  | cons c m ih =>
    simp only [Memory.writeByte]
    split
    · simp only [Memory.lookup, ih]
      split_ifs <;> first | rfl | omega
    · split
      · simp only [Memory.lookup]
        split_ifs <;> first | rfl | omega
      · simp only [Memory.lookup]
        split_ifs <;> first | rfl | omega

/-- A read of the byte just written, and of any other byte. -/
theorem readByte_writeByte (m : Memory) (k j : Nat) (b : Byte) :
    Memory.readByte (Memory.writeByte m k b) j = if j = k then b else Memory.readByte m j := by
  simp only [Memory.readByte, lookup_writeByte]
  split_ifs <;> rfl

/-- The cells of a buffer after a write are the one written and cells it had. -/
theorem mem_writeByte {m : Memory} {k : Nat} {b : Byte} {c : Host.Cell}
    (h : c ∈ Memory.writeByte m k b) : c = (k, b) ∨ c ∈ m := by
  induction m with
  | nil => simpa [Memory.writeByte] using h
  | cons e m ih =>
    simp only [Memory.writeByte] at h
    split at h
    · rcases List.mem_cons.1 h with rfl | h
      · simp
      · rcases ih h with h | h <;> simp [h]
    · split at h
      · rcases List.mem_cons.1 h with h | h <;> simp [h]
      · rcases List.mem_cons.1 h with h | h
        · exact .inl h
        · exact .inr h

theorem wf_writeByte {m : Memory} (k : Nat) (b : Byte) (h : Memory.wf m) :
    Memory.wf (Memory.writeByte m k b) := by
  induction m with
  | nil => simp [Memory.writeByte, Memory.wf]
  | cons e m ih =>
    obtain ⟨he, hm⟩ := List.pairwise_cons.1 h
    simp only [Memory.writeByte]
    split
    · rename_i hlt
      refine List.pairwise_cons.2 ⟨fun c hc => ?_, ih hm⟩
      rcases mem_writeByte hc with rfl | hc
      · exact hlt
      · exact he c hc
    · split
      · rename_i heq
        exact List.pairwise_cons.2 ⟨fun c hc => by have := he c hc; simp only; omega, hm⟩
      · refine List.pairwise_cons.2 ⟨fun c hc => ?_, h⟩
        rcases List.mem_cons.1 hc with rfl | hc
        · simp only; omega
        · have := he c hc; simp only; omega

theorem wf_writeBytes {m : Memory} (k n v : Nat) (h : Memory.wf m) :
    Memory.wf (Memory.writeBytes m k n v) := by
  induction n generalizing m k v with
  | zero => exact h
  | succ n ih => exact ih _ _ (wf_writeByte _ _ h)

/-- The cells after a write of `n` bytes lie in the bytes written or were there before. -/
theorem mem_writeBytes {m : Memory} {k n v : Nat} {c : Host.Cell}
    (h : c ∈ Memory.writeBytes m k n v) : (k ≤ c.1 ∧ c.1 < k + n) ∨ c ∈ m := by
  induction n generalizing m k v with
  | zero => exact .inr h
  | succ n ih =>
    rcases ih h with h | h
    · exact .inl ⟨by omega, by omega⟩
    · rcases mem_writeByte h with rfl | h
      · exact .inl ⟨Nat.le_refl _, by simp only; omega⟩
      · exact .inr h

/-- Two bytes written: what every offset reads as afterwards (R33, R34). -/
theorem readByte_writeBytes_two (m : Memory) (k v j : Nat) :
    Memory.readByte (Memory.writeBytes m k 2 v) j =
      if j = k then BitVec.ofNat 8 v else if j = k + 1 then BitVec.ofNat 8 (v / 256)
      else Memory.readByte m j := by
  simp only [Memory.writeBytes, readByte_writeByte]
  split_ifs <;> first | rfl | omega

/-- In canonical form an offset below every listed one looks up as nothing. -/
theorem lookup_eq_none_of_below {m : Memory} {k : Nat} (h : ∀ c ∈ m, k < c.1) :
    Memory.lookup m k = none := by
  induction m with
  | nil => rfl
  | cons c m ih =>
    have hc := h c (by simp)
    simp only [Memory.lookup, if_neg (show ¬ c.1 = k by omega)]
    exact ih fun d hd => h d (by simp [hd])

/-- Equal contents are equal data: two canonical buffers with the same byte, or none, listed at every offset are the
same list. -/
theorem eq_of_lookup_eq {m n : Memory} (hm : Memory.wf m) (hn : Memory.wf n)
    (h : ∀ k, Memory.lookup m k = Memory.lookup n k) : m = n := by
  induction m generalizing n with
  | nil =>
    cases n with
    | nil => rfl
    | cons d n => have := h d.1; simp [Memory.lookup] at this
  | cons c m ih =>
    cases n with
    | nil => have := h c.1; simp [Memory.lookup] at this
    | cons d n =>
      obtain ⟨hc, hm⟩ := List.pairwise_cons.1 hm
      obtain ⟨hd, hn'⟩ := List.pairwise_cons.1 hn
      have h1 : c.1 = d.1 := by
        rcases Nat.lt_trichotomy c.1 d.1 with hlt | heq | hgt
        · have := h c.1
          rw [lookup_eq_none_of_below (m := d :: n)] at this
          · simp [Memory.lookup] at this
          · intro e he
            rcases List.mem_cons.1 he with rfl | he
            · exact hlt
            · exact hlt.trans (hd e he)
        · exact heq
        · have := h d.1
          rw [lookup_eq_none_of_below (m := c :: m)] at this
          · simp [Memory.lookup] at this
          · intro e he
            rcases List.mem_cons.1 he with rfl | he
            · exact hgt
            · exact hgt.trans (hc e he)
      have h2 : c.2 = d.2 := by have := h c.1; simpa [Memory.lookup, h1] using this
      have hcd : c = d := Prod.ext h1 h2
      subst hcd
      have htail : m = n := by
        refine ih hm hn' fun k => ?_
        by_cases hk : c.1 = k
        · subst hk
          rw [lookup_eq_none_of_below hc, lookup_eq_none_of_below hd]
        · simpa [Memory.lookup, hk] using h k
      rw [htail]

end Sys2Proof.Machine
end

