-- ==== Sys2Proof/Laws/State.lean ====
section
/-! SUPPORT. What each update of State does to each of its fields. -/

namespace Sys2Proof.Machine

@[simp] theorem respond_buf (s : State) (r : Response) : (s.respond r).buf = s.buf := rfl
@[simp] theorem respond_bufLen (s : State) (r : Response) : (s.respond r).bufLen = s.bufLen := rfl
@[simp] theorem respond_requests (s : State) (r : Response) : (s.respond r).requests = s.requests := rfl
@[simp] theorem respond_responses (s : State) (r : Response) :
    (s.respond r).responses = r :: s.responses := rfl

@[simp] theorem withFetchWord_buf (s : State) (n w : Nat) : (s.withFetchWord n w).buf = s.buf := rfl
@[simp] theorem withFetchWord_bufLen (s : State) (n w : Nat) : (s.withFetchWord n w).bufLen = s.bufLen := rfl
@[simp] theorem withFetchWord_responses (s : State) (n w : Nat) :
    (s.withFetchWord n w).responses = s.responses := rfl
@[simp] theorem withFetchWord_requests (s : State) (n w : Nat) :
    (s.withFetchWord n w).requests = tableRequest n w :: s.requests := rfl

@[simp] theorem respond_yPort (s : State) (r : Response) : (s.respond r).yPort = r.y := rfl
@[simp] theorem respond_faultPort (s : State) (r : Response) : (s.respond r).faultPort = some r.fault := rfl

/-- The mark of a run is never taken back: an answer adds to it. -/
@[simp] theorem respond_marked (s : State) (r : Response) :
    (s.respond r).marked = (r.isRaised || s.marked) := rfl

end Sys2Proof.Machine
end

