-- ==== Sys2Proof/Laws/Ops.lean ====
section
/-! SUPPORT. One lemma for each shared operation that says everything it can do. -/

namespace Sys2Proof.Machine

theorem complete_eq (y : Double) (s : State) : complete y s = .next (s.respond (.result y)) := rfl

theorem raise_eq (e : Exc) (s : State) : raise e s = .next (s.respond (.raised e)) := rfl

/-- MemRead answers with the bytes or with `BufferRange`, by the bound alone (R37). -/
theorem memRead_cases (s : State) (off n : Nat) :
    (off + n ≤ s.bufLen ∧ memRead s off n = .ok (Memory.readBytes s.buf off n)) ∨
      (off + n > s.bufLen ∧ memRead s off n = .error (.bufferRange off)) := by
  unfold memRead
  split
  · exact .inl ⟨‹_›, rfl⟩
  · exact .inr ⟨by omega, rfl⟩

/-- MemWrite changes the buffer's bytes and nothing else, or answers with `BufferRange` (R36, R37). -/
theorem memWrite_cases (s : State) (off n v : Nat) :
    (off + n ≤ s.bufLen ∧ memWrite s off n v = .ok { s with buf := Memory.writeBytes s.buf off n v }) ∨
      (off + n > s.bufLen ∧ memWrite s off n v = .error (.bufferRange off)) := by
  unfold memWrite
  split
  · exact .inl ⟨‹_›, rfl⟩
  · exact .inr ⟨by omega, rfl⟩

/-- Two bytes one above the other, as a number. -/
theorem toNat_append_bytes (a b : Byte) : (a ++ b : Half).toNat = a.toNat * 256 + b.toNat := by
  rw [BitVec.toNat_append, Nat.shiftLeft_eq, Nat.mul_comm, ← Nat.two_pow_add_eq_or_of_lt b.isLt,
    Nat.mul_comm]

/-- The number MemRead makes of two bytes is the upper byte above the lower (section 5.2 of 00_scope.md). -/
theorem ofNat_readBytes_two (m : Memory) (off : Nat) :
    BitVec.ofNat 16 (Memory.readBytes m off 2) = Memory.readByte m (off + 1) ++ Memory.readByte m off := by
  apply BitVec.eq_of_toNat_eq
  have h0 := (Memory.readByte m off).isLt
  have h1 := (Memory.readByte m (off + 1)).isLt
  rw [toNat_append_bytes, BitVec.toNat_ofNat]
  simp only [Memory.readBytes]
  omega

/-- The exchange of the two bytes, as a number. -/
theorem toNat_swapBytes (h : Half) : (swapBytes h).toNat = h.toNat % 256 * 256 + h.toNat / 256 := by
  have hlt := h.isLt
  simp only [swapBytes, toNat_append_bytes, BitVec.extractLsb'_toNat, Nat.shiftRight_eq_div_pow]
  omega

@[simp] theorem swapBytes_append (a b : Byte) : swapBytes (a ++ b) = b ++ a := by
  apply BitVec.eq_of_toNat_eq
  have ha := a.isLt
  have hb := b.isLt
  rw [toNat_swapBytes, toNat_append_bytes, toNat_append_bytes]
  omega

@[simp] theorem swapBytes_swapBytes (h : Half) : swapBytes (swapBytes h) = h := by
  apply BitVec.eq_of_toNat_eq
  have hlt := h.isLt
  rw [toNat_swapBytes, toNat_swapBytes]
  omega

@[simp] theorem inByteOrder_inByteOrder (le : ByteOrder) (h : Half) :
    inByteOrder le (inByteOrder le h) = h := by
  cases le <;> simp [inByteOrder]

/-- BufRead16 gives the pattern the two bytes hold, or `BufferRange` (R34, R37). -/
theorem bufRead16_cases (s : State) (off : Nat) (le : ByteOrder) :
    (off + 2 ≤ s.bufLen ∧ bufRead16 s off le = .ok (heldPattern le s.buf off)) ∨
      (off + 2 > s.bufLen ∧ bufRead16 s off le = .error (.bufferRange off)) := by
  rcases memRead_cases s off 2 with ⟨h, hr⟩ | ⟨h, hr⟩
  · refine .inl ⟨h, ?_⟩
    cases le <;> simp [bufRead16, hr, inByteOrder, heldPattern, ofNat_readBytes_two]
  · exact .inr ⟨h, by simp [bufRead16, hr]⟩

/-- What every offset of the buffer reads as after a store of a 16-bit pattern (R33, R34, R36). -/
theorem readByte_store (m : Memory) (off k : Nat) (le : ByteOrder) (h : Half) :
    Memory.readByte (Memory.writeBytes m off 2 (inByteOrder le h).toNat) k =
      if touches off k then storedByte le off h k else Memory.readByte m k := by
  have lo : ∀ x : Half, BitVec.ofNat 8 x.toNat = x.extractLsb' 0 8 := fun x => by
    apply BitVec.eq_of_toNat_eq; simp
  have hi : ∀ x : Half, BitVec.ofNat 8 (x.toNat / 256) = x.extractLsb' 8 8 := fun x => by
    apply BitVec.eq_of_toNat_eq; simp [Nat.shiftRight_eq_div_pow]
  have slo : (swapBytes h).extractLsb' 0 8 = h.extractLsb' 8 8 := by
    apply BitVec.eq_of_toNat_eq
    have hlt := h.isLt
    simp only [BitVec.extractLsb'_toNat, Nat.shiftRight_eq_div_pow, toNat_swapBytes, Nat.reducePow, Nat.div_one]
    omega
  have shi : (swapBytes h).extractLsb' 8 8 = h.extractLsb' 0 8 := by
    apply BitVec.eq_of_toNat_eq
    have hlt := h.isLt
    have hq : (h.toNat % 256 * 256 + h.toNat / 256) / 256 = h.toNat % 256 := by
      rw [Nat.mul_comm, Nat.mul_add_div (by norm_num), Nat.div_eq_of_lt (by omega), Nat.add_zero]
    simp only [BitVec.extractLsb'_toNat, Nat.shiftRight_eq_div_pow, toNat_swapBytes, Nat.reducePow, Nat.div_one, hq]
    omega
  rw [readByte_writeBytes_two, lo, hi]
  by_cases h1 : k = off
  · cases le <;> simp [h1, touches, storedByte, inByteOrder, slo]
  · by_cases h2 : k = off + 1
    · cases le <;> simp [h2, touches, storedByte, inByteOrder, shi]
    · simp [touches, h1, h2]

/-- BufWrite16 stores the pattern's two bytes and changes nothing else, or answers with `BufferRange` (R34, R37). -/
theorem bufWrite16_cases (s : State) (off : Nat) (le : ByteOrder) (h : Half) :
    (off + 2 ≤ s.bufLen ∧ bufWrite16 s off le h =
        .ok { s with buf := Memory.writeBytes s.buf off 2 (inByteOrder le h).toNat }) ∨
      (off + 2 > s.bufLen ∧ bufWrite16 s off le h = .error (.bufferRange off)) :=
  memWrite_cases s off 2 _

end Sys2Proof.Machine
end

