-- ==== Sys2Proof/Laws/Exec.lean ====
section
/-! SUPPORT. What each meaning can do: the value forms complete in one way, the buffer forms in two, by the bound
alone. -/

namespace Sys2Proof.Machine

theorem exec_dec16 (h : Half) (s : State) : exec (.dec16 h) s = .next (s.respond (.result (decodePattern h))) := rfl

theorem exec_enc16 (d : Double) (s : State) :
    exec (.enc16 d) s = .next (s.respond (.result (placeHalf (encodePattern d)))) := rfl

theorem exec_cls16 (d : Double) (s : State) :
    exec (.cls16 d) s = .next (s.respond (.result (placeLabel (classify binary16 d)))) := rfl

theorem exec_cls32 (d : Double) (s : State) :
    exec (.cls32 d) s = .next (s.respond (.result (placeLabel (classify binary32 d)))) := rfl

/-- LDDEC16 answers with the decoding of the pattern the buffer holds, or with `BufferRange` (R67). -/
theorem exec_lddec16_cases (le : ByteOrder) (off : Nat) (s : State) :
    (off + 2 ≤ s.bufLen ∧
      exec (.lddec16 le off) s = .next (s.respond (.result (decodePattern (heldPattern le s.buf off))))) ∨
    (off + 2 > s.bufLen ∧ exec (.lddec16 le off) s = .next (s.respond (.raised (.bufferRange off)))) := by
  rcases bufRead16_cases s off le with ⟨h, hr⟩ | ⟨h, hr⟩
  · exact .inl ⟨h, by simp [exec, execLddec16, hr, complete_eq]⟩
  · exact .inr ⟨h, by simp [exec, execLddec16, hr, raise_eq]⟩

/-- ENCST16 stores the encoded pattern and shows it, or answers with `BufferRange` and stores nothing (R81). -/
theorem exec_encst16_cases (le : ByteOrder) (off : Nat) (d : Double) (s : State) :
    (off + 2 ≤ s.bufLen ∧
      exec (.encst16 le off d) s =
        .next (State.respond
          { s with buf := Memory.writeBytes s.buf off 2 (inByteOrder le (encodePattern d)).toNat }
          (.result (placeHalf (encodePattern d))))) ∨
    (off + 2 > s.bufLen ∧ exec (.encst16 le off d) s = .next (s.respond (.raised (.bufferRange off)))) := by
  rcases bufWrite16_cases s off le (encodePattern d) with ⟨h, hr⟩ | ⟨h, hr⟩
  · exact .inl ⟨h, by simp [exec, execEncst16, hr, complete_eq]⟩
  · exact .inr ⟨h, by simp [exec, execEncst16, hr, raise_eq]⟩

end Sys2Proof.Machine
end

