-- ==== Sys2Proof/Laws/Fields.lean ====
section
/-! SUPPORT. Patterns and their fields as numbers: each field of a pattern, each pattern from its fields. -/

namespace Sys2Proof.Machine

theorem exp16_eq (h : Half) : exp16 h = h.toNat / 2 ^ 10 % 2 ^ 5 := by
  simp [exp16, BitVec.extractLsb'_toNat, Nat.shiftRight_eq_div_pow]

theorem man16_eq (h : Half) : man16 h = h.toNat % 2 ^ 10 := by
  simp [man16, BitVec.extractLsb'_toNat]

theorem sign16_eq (h : Half) : sign16 h = decide (2 ^ 15 ≤ h.toNat) := by
  have hlt := h.isLt
  simp only [sign16, BitVec.getLsbD, Nat.testBit_eq_decide_div_mod_eq]
  apply decide_eq_decide.2
  omega

theorem exp64_eq (d : Double) : exp64 d = d.toNat / 2 ^ 52 % 2 ^ 11 := by
  simp [exp64, BitVec.extractLsb'_toNat, Nat.shiftRight_eq_div_pow]

theorem man64_eq (d : Double) : man64 d = d.toNat % 2 ^ 52 := by
  simp [man64, BitVec.extractLsb'_toNat]

theorem sign64_eq (d : Double) : sign64 d = decide (2 ^ 63 ≤ d.toNat) := by
  have hlt := d.isLt
  simp only [sign64, BitVec.getLsbD, Nat.testBit_eq_decide_div_mod_eq]
  apply decide_eq_decide.2
  omega

theorem exp16_lt (h : Half) : exp16 h < 32 := by rw [exp16_eq]; omega
theorem man16_lt (h : Half) : man16 h < 2 ^ 10 := by rw [man16_eq]; omega
theorem exp64_lt (d : Double) : exp64 d < 2048 := by rw [exp64_eq]; omega
theorem man64_lt (d : Double) : man64 d < 2 ^ 52 := by rw [man64_eq]; omega

/-- A sign above a 15-bit field, as a number. -/
theorem toNat_pack16 (s : Bool) (r : Nat) :
    (pack16 s r).toNat = (if s then 2 ^ 15 else 0) + r % 2 ^ 15 := by
  have hlt : r % 2 ^ 15 < 2 ^ 15 := Nat.mod_lt _ (by norm_num)
  rw [pack16, BitVec.toNat_append, BitVec.toNat_ofNat, Nat.shiftLeft_eq, Nat.mul_comm,
    ← Nat.two_pow_add_eq_or_of_lt hlt]
  cases s <;> simp

/-- The fields of a binary64 pattern assembled from fields, as a number. -/
theorem toNat_pack64 (s : Bool) (e f : Nat) :
    (pack64 s e f).toNat = (if s then 2 ^ 63 else 0) + e % 2 ^ 11 * 2 ^ 52 + f % 2 ^ 52 := by
  have hf : f % 2 ^ 52 < 2 ^ 52 := Nat.mod_lt _ (by norm_num)
  have he : e % 2 ^ 11 < 2 ^ 11 := Nat.mod_lt _ (by norm_num)
  rw [pack64, BitVec.toNat_append, BitVec.toNat_ofNat, Nat.shiftLeft_eq, Nat.mul_comm,
    ← Nat.two_pow_add_eq_or_of_lt hf, BitVec.toNat_append, BitVec.toNat_ofNat, Nat.shiftLeft_eq, Nat.mul_comm _ (2 ^ 11),
    ← Nat.two_pow_add_eq_or_of_lt he]
  cases s <;> simp <;> omega

@[simp] theorem exp64_pack64 (s : Bool) (e f : Nat) : exp64 (pack64 s e f) = e % 2 ^ 11 := by
  rw [exp64_eq, toNat_pack64]; split <;> omega

@[simp] theorem man64_pack64 (s : Bool) (e f : Nat) : man64 (pack64 s e f) = f % 2 ^ 52 := by
  rw [man64_eq, toNat_pack64]; split <;> omega

@[simp] theorem sign64_pack64 (s : Bool) (e f : Nat) : sign64 (pack64 s e f) = s := by
  rw [sign64_eq, toNat_pack64]; cases s <;> simp <;> omega

/-- A binary64 pattern is its three fields (R2). -/
theorem pack64_fields (d : Double) : pack64 (sign64 d) (exp64 d) (man64 d) = d := by
  apply BitVec.eq_of_toNat_eq
  have hlt := d.isLt
  rw [toNat_pack64, sign64_eq, exp64_eq, man64_eq]
  by_cases h : 2 ^ 63 ≤ d.toNat
  · rw [decide_eq_true h, if_pos rfl]; omega
  · rw [decide_eq_false h, if_neg (by simp)]; omega

@[simp] theorem exp16_pack16 (s : Bool) (r : Nat) : exp16 (pack16 s r) = r / 2 ^ 10 % 2 ^ 5 := by
  rw [exp16_eq, toNat_pack16]; split <;> omega

@[simp] theorem man16_pack16 (s : Bool) (r : Nat) : man16 (pack16 s r) = r % 2 ^ 10 := by
  rw [man16_eq, toNat_pack16]; split <;> omega

@[simp] theorem sign16_pack16 (s : Bool) (r : Nat) : sign16 (pack16 s r) = s := by
  rw [sign16_eq, toNat_pack16]; cases s <;> simp; omega

end Sys2Proof.Machine
end

