-- ==== Sys2Proof/Laws/PerInstr.lean ====
section
/-! SUPPORT. A fact of the syntax of every operation: the request it encodes to selects an operation, by the operation
code of its row (R47). -/

namespace Sys2Proof.Laws

/-- The request of an operation is not a reserved one, and its `op` is the operation's code. -/
def EncodesDefined.Statement (i : Instr) : Prop :=
  (encode i).wellFormed = true ∧ opField (encode i).cmd = opcode i

/-- The operation select of a command word put together from its two fields (R46). -/
theorem opField_append : ∀ (le : BitVec 1) (op : BitVec 3), opField (le ++ op) = op := by decide

/-- A request with an operation's own command word is not a reserved one. -/
theorem encodesDefined (i : Instr) (h : opcode i ≠ 6 ∧ opcode i ≠ 7) : EncodesDefined.Statement i := by
  have hop : opField (encode i).cmd = opcode i := opField_append _ _
  refine ⟨?_, hop⟩
  simp only [Request.wellFormed, hop, Bool.and_eq_true, bne_iff_ne]
  exact h

theorem EncodesDefined.dec16 (h : Half) : EncodesDefined.Statement (.dec16 h) :=
  encodesDefined _ (by simp [opcode])

theorem EncodesDefined.enc16 (d : Double) : EncodesDefined.Statement (.enc16 d) :=
  encodesDefined _ (by simp [opcode])

theorem EncodesDefined.cls16 (d : Double) : EncodesDefined.Statement (.cls16 d) :=
  encodesDefined _ (by simp [opcode])

theorem EncodesDefined.cls32 (d : Double) : EncodesDefined.Statement (.cls32 d) :=
  encodesDefined _ (by simp [opcode])

theorem EncodesDefined.lddec16 (le : ByteOrder) (off : Nat) : EncodesDefined.Statement (.lddec16 le off) :=
  encodesDefined _ (by simp [opcode])

theorem EncodesDefined.encst16 (le : ByteOrder) (off : Nat) (d : Double) :
    EncodesDefined.Statement (.encst16 le off d) :=
  encodesDefined _ (by simp [opcode])

end Sys2Proof.Laws
end

