-- ==== Sys2Proof/Tests/Slice0.lean ====
section
/-! SUPPORT. Tests on fixed values. Every expected value is the spec's: the vectors and programs of
spec/95_test_vectors.md (its section or row is named) and the worked examples of the rules. -/

namespace Sys2Proof.Tests

open Sys2Proof.Machine

/-- A state with a listed buffer, its length, and nothing pending or answered. -/
def withBuf (b : Memory) (n : Nat) : State := { buf := b, bufLen := n, requests := [], responses := [] }

/-- `AA` eight times, the start of program P1. -/
def p1Start : State :=
  withBuf [(0, 0xAA), (1, 0xAA), (2, 0xAA), (3, 0xAA), (4, 0xAA), (5, 0xAA), (6, 0xAA), (7, 0xAA)] 8

/-- `00 3C 00 00`, `BUFLEN` 4 (section 6). -/
def s6 : State := withBuf [(0, 0x00), (1, 0x3C), (2, 0x00), (3, 0x00)] 4

/-- The step put this answer first and left this buffer. -/
def answered (o : Host.Outcome State Fault Refusal) (r : Response) (b : Memory) : Bool :=
  match o with
  | .next t => t.responses.head? == some r && t.buf == b
  | .fault _ => false
  | .refused _ => false

/-- The step refused this `op` as reserved. -/
def refusedOp (o : Host.Outcome State Fault Refusal) (op : BitVec 3) : Bool :=
  match o with
  | .refused (.reservedOp q) => q == op
  | .refused (.notModelled _) => false
  | .next _ => false
  | .fault _ => false

/-- The operation a request decodes to. -/
def decoded (r : Request) (i : Instr) : Bool :=
  match decode r with
  | .ok j => j == i
  | .error _ => false

/-! ### Well-formedness: an ill-formed term for each check -/

theorem test_reserved_six_illformed : Request.wellFormed ⟨0x6, 0, 0⟩ = false := by decide
theorem test_reserved_seven_illformed : Request.wellFormed ⟨0xF, 0, 0⟩ = false := by decide
theorem test_encst_wellformed : Request.wellFormed ⟨0xD, 0, 7⟩ = true := by decide
theorem test_line_suffix_required :
    Line.wellFormed ⟨.lddec16, none, some 0, none⟩ = false := by decide
theorem test_line_suffix_not_allowed :
    Line.wellFormed ⟨.enc16, some .little, none, some 1⟩ = false := by decide
theorem test_line_offset_required :
    Line.wellFormed ⟨.encst16, some .big, none, some 1⟩ = false := by decide
theorem test_line_data_required : Line.wellFormed ⟨.cls16, none, none, none⟩ = false := by decide
theorem test_line_data_not_allowed :
    Line.wellFormed ⟨.decodeAlias, some .big, some 0, some 1⟩ = false := by decide
theorem test_line_data_fits : Line.wellFormed ⟨.dec16, none, none, some (2 ^ 64)⟩ = false := by decide
theorem test_line_wellformed :
    Line.wellFormed ⟨.encst16, some .big, some 4, some 0xC000000000000000⟩ = true := by decide

/-! ### Decoding: the command words of R47, written out bit by bit as `eooo` (R46) -/

theorem test_decode_dec16 : decoded ⟨0b0000, 0xFFFFFFFFFFFF3C00, 5⟩ (.dec16 0x3C00) = true := by decide
theorem test_decode_dec16_le_ignored : decoded ⟨0b1000, 0x3C00, 5⟩ (.dec16 0x3C00) = true := by decide
theorem test_decode_enc16 : decoded ⟨0b0001, 0x3FF0000000000000, 5⟩ (.enc16 0x3FF0000000000000) = true := by
  decide
theorem test_decode_cls16 : decoded ⟨0b0010, 1, 5⟩ (.cls16 1) = true := by decide
theorem test_decode_cls32 : decoded ⟨0b0011, 1, 5⟩ (.cls32 1) = true := by decide
theorem test_decode_lddec16_big : decoded ⟨0b0100, 1, 5⟩ (.lddec16 .big 5) = true := by decide
theorem test_decode_lddec16_little : decoded ⟨0b1100, 1, 5⟩ (.lddec16 .little 5) = true := by decide
theorem test_decode_encst16_big : decoded ⟨0b0101, 1, 5⟩ (.encst16 .big 5 1) = true := by decide
theorem test_decode_encst16_little : decoded ⟨0b1101, 1, 5⟩ (.encst16 .little 5 1) = true := by decide
theorem test_table_word : decodeTableWord 8 0xC = some (.lddec16 .little 0) := by decide
theorem test_table_word_reserved : decodeTableWord 8 0xE = none := by decide
theorem test_fetch_word_runs :
    answered (step (State.reset.withFetchWord 8 0x1)) (.result 0) [] = true := by decide

/-! ### DEC16 and LDDEC16 -/

/-- S1. -/
theorem test_dec16_one : decodePattern 0x3C00 = 0x3FF0000000000000 := by decide
/-- Section 2: the largest subnormal; both routes (R63). -/
theorem test_dec16_subnormal :
    decodePattern 0x83FF = 0xBF0FF80000000000 ∧ decodeVia32 0x83FF = 0xBF0FF80000000000 := by decide
/-- Section 6, `lddec16.be [1]` at an odd offset. -/
theorem test_lddec16_big_odd :
    answered (exec (.lddec16 .big 1) s6) (.result 0x3FF0000000000000) s6.buf = true := by decide
/-- P1 step 8: out of range at the last byte. -/
theorem test_lddec16_out_of_range :
    answered (exec (.lddec16 .little 7) p1Start) (.raised (.bufferRange 7)) p1Start.buf = true := by decide

/-! ### ENC16 and ENCST16 -/

/-- S4: the tie at 65520 carries through the exponent to infinity. -/
theorem test_enc16_tie_to_infinity : encodePattern 0x40EFFE0000000000 = 0x7C00 := by decide
/-- Section 4: just above 2^−25 is the smallest subnormal (C2). -/
theorem test_enc16_above_half_unit : encodePattern 0xBE60000000000001 = 0x8001 := by decide
/-- Section 6, `encst16.le [1], 0xC000000000000000`. -/
theorem test_encst16_little :
    answered (exec (.encst16 .little 1 0xC000000000000000) (withBuf [(0, 0), (1, 0), (2, 0), (3, 0)] 4))
      (.result 0xC000) [(0, 0x00), (1, 0x00), (2, 0xC0), (3, 0x00)] = true := by decide
/-- P1 step 9. -/
theorem test_encst16_out_of_range :
    answered (exec (.encst16 .little 7 0x3FF0000000000000) p1Start) (.raised (.bufferRange 7)) p1Start.buf =
      true := by decide

/-! ### CLS16 and CLS32 -/

/-- C1: 2047 × 2^−25 is inexact although n = 10. -/
theorem test_cls16_shortfall : classify binary16 0x3F0FFC0000000000 = .inexact := by decide
/-- R96: the value of the source's open question. -/
theorem test_cls16_open_question : classify binary16 0x3F0FF80000000000 = .exact := by decide
/-- R93: 1.5 × 2^−149, and the largest binary32 subnormal. -/
theorem test_cls32_subnormal_range :
    classify binary32 0x36A8000000000000 = .inexact ∧ classify binary32 0x380FFFFFC0000000 = .exact := by decide
/-- R93: 2^128. -/
theorem test_cls32_overflow : classify binary32 0x47F0000000000000 = .overflow := by decide

/-! ### Listing text (R53, R54) -/

/-- `lddec16.le [4]`, and P4's first line with its comment, in any letters. -/
theorem test_listing_load :
    readLine ['L','D','d','e','c','1','6','.','l','e',' ','[','4',']'] =
      some ⟨.lddec16, some .little, some 4, none⟩ := by decide
theorem test_listing_store :
    readLine ['e','n','c','o','d','e','.','b','e',' ','[','0','x','1','f',']',',',' ','1','0',' ',';','x'] =
      some ⟨.encodeAlias, some .big, some 31, some 10⟩ := by decide
theorem test_listing_value_form_takes_no_suffix :
    readLine ['d','e','c','1','6','.','l','e',' ','1'] = none := by decide

/-- A computed result as a completion. -/
theorem completes_dec16 {h : Half} {y : Double} (s : State) (e : decodePattern h = y) :
    completesWith (.dec16 h) s y := e ▸ rfl

theorem completes_enc16 {d : Double} {y : Double} (s : State) (e : placeHalf (encodePattern d) = y) :
    completesWith (.enc16 d) s y := e ▸ rfl

/-! ### Witnesses: for each statement with hypotheses, a state and operands that meet them, clause by clause -/

theorem witness_OpcodeMapSelectsOperation :
    (0x8 : BitVec 4) &&& 0x7 = 0x0 ∧ (0x9 : BitVec 4) &&& 0x7 = 0x1 ∧ (0x2 : BitVec 4) &&& 0x7 = 0x2 ∧
    (0xB : BitVec 4) &&& 0x7 = 0x3 ∧ (0xC : BitVec 4) &&& 0x7 = 0x4 ∧ (0x5 : BitVec 4) &&& 0x7 = 0x5 ∧
    (0xE : BitVec 4) &&& 0x7 = 0x6 ∧ (0x7 : BitVec 4) &&& 0x7 = 0x7 := by decide

theorem witness_EncodeOfDecodeKeepsWhatIsRead :
    decode ⟨0x0, 1, 0⟩ = .ok (.dec16 1) ∧ decode ⟨0x9, 1, 0⟩ = .ok (.enc16 1) ∧
    decode ⟨0x2, 1, 0⟩ = .ok (.cls16 1) ∧ decode ⟨0x3, 1, 0⟩ = .ok (.cls32 1) ∧
    decode ⟨0xC, 1, 7⟩ = .ok (.lddec16 .little 7) ∧ decode ⟨0x5, 1, 7⟩ = .ok (.encst16 .big 7 1) :=
  ⟨rfl, rfl, rfl, rfl, rfl, rfl⟩

theorem witness_IgnoredInputsHaveNoEffect :
    (opField 0x8 = opField 0x0 ∧ opField 0x8 = 0 ∧
      (0xFFFF3C00 : Double).extractLsb' 0 16 = (0x3C00 : Double).extractLsb' 0 16) ∧
    (opField 0x9 = opField 0x1 ∧ (opField 0x9 = 1 ∨ opField 0x9 = 2 ∨ opField 0x9 = 3)) ∧
    (opField 0xC = 4 ∧ (0xC : BitVec 4).getLsbD 3 = (0xC : BitVec 4).getLsbD 3) ∧
    Request.wellFormed ⟨0x5, 0, 0⟩ = true := by decide

theorem witness_ReservedOperationsAreRefused :
    { s6 with requests := [⟨0xE, 1, 9⟩] }.requests = [⟨0xE, 1, 9⟩] ∧
    refusedOp (step { s6 with requests := [⟨0xE, 1, 9⟩] }) 6 = true ∧
    refusedOp (step { s6 with requests := [⟨0x7, 1, 9⟩, ⟨0, 0, 0⟩] }) 7 = true := by decide

theorem witness_StepRunsTheDecodedOperation :
    { s6 with requests := [⟨0x4, 0, 1⟩] }.requests = [⟨0x4, 0, 1⟩] ∧
    decode ⟨0x4, 0, 1⟩ = .ok (.lddec16 .big 1) := ⟨rfl, rfl⟩

theorem witness_NoRequestNothingChanges : s6.requests = [] := rfl

theorem witness_ListingLinesStandForTheirRequests : 0xFFFFFFFFFFFFFFFF < 2 ^ 64 := by decide

/-- The largest exponent field of a normal binary16 pattern and the smallest, and the field of all ones. -/
theorem witness_PatternsMeanWhatTheTableSays :
    binary16 ∈ [binary16, binary32, binary64] ∧ 0 < 1 ∧ 30 < 2 ^ binary16.ebits - 1 ∧
    31 = 2 ^ binary16.ebits - 1 ∧ valueOf binary16 true 0 1023 = .finite true (1023 * powerOfTwo (-24)) := by
  decide +kernel

/-- Zero, the smallest and the largest subnormal with their p, infinity, NaN, the smallest and the largest normal. -/
theorem witness_Dec16FiveCases :
    ((0x8000 : Half).extractLsb' 10 5 = 0 ∧ (0x8000 : Half).extractLsb' 0 10 = 0) ∧
    ((0x0001 : Half).extractLsb' 10 5 = 0 ∧ 2 ^ 0 ≤ ((0x0001 : Half).extractLsb' 0 10).toNat ∧
      ((0x0001 : Half).extractLsb' 0 10).toNat < 2 ^ (0 + 1)) ∧
    ((0x83FF : Half).extractLsb' 10 5 = 0 ∧ 2 ^ 9 ≤ ((0x83FF : Half).extractLsb' 0 10).toNat ∧
      ((0x83FF : Half).extractLsb' 0 10).toNat < 2 ^ (9 + 1)) ∧
    ((0xFC00 : Half).extractLsb' 10 5 = 31 ∧ (0xFC00 : Half).extractLsb' 0 10 = 0) ∧
    ((0x7C01 : Half).extractLsb' 10 5 = 31 ∧ (0x7C01 : Half).extractLsb' 0 10 ≠ 0) ∧
    ((0x0400 : Half).extractLsb' 10 5 ≠ 0 ∧ (0x0400 : Half).extractLsb' 10 5 ≠ 31) ∧
    ((0x7BFF : Half).extractLsb' 10 5 ≠ 0 ∧ (0x7BFF : Half).extractLsb' 10 5 ≠ 31) := by decide

theorem witness_Dec16NaNBits :
    (0xFFFF : Half).extractLsb' 10 5 = 31 ∧ (0xFFFF : Half).extractLsb' 0 10 ≠ 0 := by decide

theorem witness_Dec16IsExact : val16 0x8000 ≠ .nan ∧ val64 0x8000000000000000 = val16 0x8000 := by decide +kernel

theorem witness_Dec16InjectiveOffNaN :
    isNaN16 0x3C00 = false ∧ completesWith (.dec16 0x3C00) s6 0x3FF0000000000000 :=
  ⟨by decide, completes_dec16 _ (by decide)⟩

theorem witness_Dec16KeepsTheOrderOfMagnitudes :
    isNaN16 0x03FF = false ∧ isNaN16 0x0400 = false ∧ sign16 0x03FF = sign16 0x0400 ∧
    completesWith (.dec16 0x03FF) s6 0x3F0FF80000000000 ∧ completesWith (.dec16 0x0400) s6 0x3F10000000000000 :=
  ⟨by decide, by decide, by decide, completes_dec16 _ (by decide), completes_dec16 _ (by decide)⟩

/-- The two ends of the loop: one round and ten. -/
theorem witness_DecoderRoutesAgree :
    normalizeSubnormal 1023 = (2046, -15) ∧ normalizeSubnormal 1 = (1024, -24) := by decide

theorem witness_Enc16CanonicalNaN :
    ((0xFFF0000000000001 : Double).extractLsb' 52 11 = 0x7FF ∧
      (0xFFF0000000000001 : Double).extractLsb' 0 52 ≠ 0) ∧
    (completesWith (.enc16 0xFFF0000000000001) s6 0x7E00 ∧
      isNaN16 ((0x7E00 : Double).extractLsb' 0 16) = true) :=
  ⟨by decide, completes_enc16 _ (by decide), by decide⟩

theorem witness_Enc16InfinitiesAndZeros :
    ((0xFFF0000000000000 : Double).extractLsb' 52 11 = 0x7FF ∧
      (0xFFF0000000000000 : Double).extractLsb' 0 52 = 0) ∧
    ((0x8000000000000000 : Double).extractLsb' 52 11 = 0 ∧
      (0x8000000000000000 : Double).extractLsb' 0 52 = 0) := by decide

theorem witness_Enc16SubnormalInputsGiveZero :
    (0x800FFFFFFFFFFFFF : Double).extractLsb' 52 11 = 0 ∧
    (0x800FFFFFFFFFFFFF : Double).extractLsb' 0 52 ≠ 0 := by decide

/-- 65536 and 65520 (section 4). -/
theorem witness_Enc16OverflowSaturates :
    ((0x40F0000000000000 : Double).extractLsb' 52 11 ≠ 0x7FF ∧ unbiased64 0x40F0000000000000 > 15) ∧
    ((0x40EFFE0000000000 : Double).extractLsb' 52 11 ≠ 0x7FF ∧
      65520 * powerOfTwo 0 ≤ (val64 0x40EFFE0000000000).magnitude ∧
      (val64 0x40EFFE0000000000).magnitude < powerOfTwo 16) := by decide +kernel

/-- 2^−14 and 65504, the two ends of the normal range. -/
theorem witness_Enc16NormalRange :
    (-14 ≤ unbiased64 0x3F10000000000000 ∧ unbiased64 0x3F10000000000000 ≤ 15) ∧
    (-14 ≤ unbiased64 0x40EFFC0000000000 ∧ unbiased64 0x40EFFC0000000000 ≤ 15) := by decide

/-- Deficits 1, 11 (the tie and above it) and 12. -/
theorem witness_Enc16SubnormalRange :
    unbiased64 0x3F0FFC0000000000 = -14 - ((1 : Nat) : Int) ∧
    (unbiased64 0x3E60000000000000 = -14 - ((11 : Nat) : Int) ∧ (0x3E60000000000000 : Double).extractLsb' 0 52 = 0) ∧
    (unbiased64 0x3E60000000000001 = -14 - ((11 : Nat) : Int) ∧ (0x3E60000000000001 : Double).extractLsb' 0 52 ≠ 0) ∧
    (unbiased64 0x3E50000000000000 = -14 - ((12 : Nat) : Int) ∧
      (0x3E50000000000000 : Double).extractLsb' 52 11 ≠ 0) := by decide

/-- Section 3: a tie to even from below and from above, and a shift past the whole number. -/
theorem witness_RoundingIsNearestTiesToEven :
    (2 * (rne 0b1010 2 * 2 ^ 2) + 2 ^ 2 = 2 * 0b1010 ∧ rne 0b1010 2 = 2) ∧
    (2 * (rne 0b1110 2 * 2 ^ 2) = 2 * 0b1110 + 2 ^ 2 ∧ rne 0b1110 2 = 4) ∧
    (0b1 < 2 ^ (2 - 1) ∧ rne 0b1 2 = 0) := by decide

theorem witness_Enc16IsCorrectRounding : val64 0x40EFFE0000000000 = .finite false (65520 * powerOfTwo 0) := by
  decide +kernel

theorem witness_Enc16SignSymmetry :
    isNaN64 0x3FD5555555555555 = false ∧ completesWith (.enc16 0x3FD5555555555555) s6 0x3555 :=
  ⟨by decide, completes_enc16 _ (by decide)⟩

theorem witness_Enc16IsMonotone :
    (val64 0xBFF0000000000000).atMost (val64 0x3FD5555555555555) ∧
    completesWith (.enc16 0xBFF0000000000000) s6 ((0xBC00 : Half).setWidth 64) ∧
    completesWith (.enc16 0x3FD5555555555555) s6 ((0x3555 : Half).setWidth 64) :=
  ⟨by decide +kernel, completes_enc16 _ (by decide), completes_enc16 _ (by decide)⟩

theorem witness_EncodeOfDecodedPatternRoundTrips :
    isNaN16 0x03FF = false ∧ isNaN16 0xFE00 = true := by decide

theorem witness_OneNaN :
    isNaN16 0x7C01 = true ∧ isNaN16 0xFFFF = true ∧ isNaN64 0xFFF8000000000000 = true ∧
    isNaN64 0x7FF0000000000001 = true ∧
    (completesWith (.dec16 0x7C01) s6 0x7FF8000000000000 ∧ isNaN64 0x7FF8000000000000 = true) ∧
    (completesWith (.enc16 0xFFFFFFFFFFFFFFFF) s6 0x7E00 ∧
      isNaN16 ((0x7E00 : Double).extractLsb' 0 16) = true) :=
  ⟨by decide, by decide, by decide, by decide, ⟨completes_dec16 _ (by decide), by decide⟩,
    completes_enc16 _ (by decide), by decide⟩

/-- The last admitted offset and the first that is not (R37); the statements about admitted accesses and about
`BufferRange` all start from one of the two. -/
theorem witness_admitted : 2 + 2 ≤ s6.bufLen := by decide
theorem witness_OutOfRangeIsReported : 3 + 2 > s6.bufLen := by decide

theorem witness_Encst16StoresInByteOrder :
    2 + 2 ≤ s6.bufLen ∧ ¬ touches 2 1 ∧ ¬ touches 2 4 ∧
    answered (exec (.encst16 .big 2 0x7FF8000000000000) s6) (.result 0x7E00)
      [(0, 0x00), (1, 0x3C), (2, 0x7E), (3, 0x00)] = true := by decide

theorem witness_Lddec16ReadsInByteOrder :
    0 + 2 ≤ s6.bufLen ∧
    completesWith (.dec16 (Memory.readByte s6.buf (0 + 1) ++ Memory.readByte s6.buf 0)) s6 0x3FF0000000000000 ∧
    completesWith (.dec16 (Memory.readByte s6.buf 0 ++ Memory.readByte s6.buf (0 + 1))) s6 0x3ECE000000000000 :=
  ⟨by decide, completes_dec16 _ (by decide), completes_dec16 _ (by decide)⟩

theorem witness_SameRequestFailsTheSameWay :
    exec (.lddec16 .little 3) s6 = .next { s6 with responses := .raised (.bufferRange 3) :: s6.responses } := rfl

theorem witness_StoreThenLoad : 0 + 2 ≤ s6.bufLen := by decide

/-- Two stores that share the byte at offset 1. -/
theorem witness_AccessesHappenInRequestOrder :
    0 + 2 ≤ s6.bufLen ∧ 1 + 2 ≤ s6.bufLen ∧ touches 1 1 ∧ (touches 0 0 ∧ ¬ touches 1 0) ∧
    (¬ touches 0 3 ∧ ¬ touches 1 3) := by decide

theorem witness_AccessTouchesTwoBytes :
    (∃ t, exec (.encst16 .little 2 0) s6 = .next t) ∧ ¬ touches 2 1 ∧
    (s6.bufLen = { s6 with responses := [.result 7] }.bufLen ∧
      completesWith (.lddec16 .little 0) s6 (decodePattern (heldPattern .little s6.buf 0))) :=
  ⟨⟨_, rfl⟩, by decide, rfl, rfl⟩

theorem witness_FrameOfEveryOperation :
    exec (.cls16 0) s6 = .next { s6 with responses := [.result 0] } ∧
    exec (.encst16 .big 3 0) s6 = .next { s6 with responses := [.raised (.bufferRange 3)] } := ⟨rfl, rfl⟩

theorem witness_SameRequestSameAnswer :
    s6.buf = { s6 with responses := [.result 7] }.buf ∧ s6.bufLen = { s6 with responses := [.result 7] }.bufLen ∧
    ∃ t, exec (.lddec16 .little 0) s6 = .next t := ⟨rfl, rfl, _, rfl⟩

theorem witness_ResultsAreZeroExtended :
    (∃ t, exec (.lddec16 .big 3) s6 = .next t ∧ t.faultPort = some 1) ∧
    (∃ t y, exec (.enc16 0x3FF0000000000000) s6 = .next t ∧ t.yPort = some y) ∧
    (∃ t y, exec (.cls32 0x47F0000000000000) s6 = .next t ∧ t.yPort = some y) ∧
    (∃ t y, exec (.encst16 .big 2 0) s6 = .next t ∧ t.yPort = some y) :=
  ⟨⟨_, rfl, rfl⟩, ⟨_, _, rfl, rfl⟩, ⟨_, _, rfl, rfl⟩, ⟨_, _, rfl, rfl⟩⟩

theorem witness_ClsSpecialInputsAreExact :
    (0xFFFFFFFFFFFFFFFF : Double).extractLsb' 52 11 = 0x7FF ∧
    ((0x8000000000000000 : Double).extractLsb' 52 11 = 0 ∧ (0x8000000000000000 : Double).extractLsb' 0 52 = 0) := by
  decide

/-- Section 5: the lowest and the highest bit of the field. -/
theorem witness_SignificantBitCount :
    (0 < 1 ∧ 1 < 2 ^ 52 ∧ significantBits 1 = 52) ∧
    (0 < 2 ^ 51 ∧ 2 ^ 51 < 2 ^ 52 ∧ significantBits (2 ^ 51) = 1) := by decide

/-- The exponents at which the clauses meet: 16, 15, −14, −15, −24 for binary16; 128, 127, −126, −127, −149 for
binary32. -/
theorem witness_ClsStepsByExponent :
    (unbiased64 0x40F0000000000000 = 16 ∧ unbiased64 0x40EFFE0000000000 = 15 ∧
      unbiased64 0x3F10000000000000 = -14 ∧ unbiased64 0x3F0FF80000000000 = -15 ∧
      unbiased64 0x3E70000000000000 = -24) ∧
    (unbiased64 0x47F0000000000000 = 128 ∧ unbiased64 0x47EFFFFFF0000000 = 127 ∧
      unbiased64 0x3810000000000000 = -126 ∧ unbiased64 0x380FFFFFC0000000 = -127 ∧
      unbiased64 0x36A0000000000000 = -149) ∧
    (0x47F0000000000000 : Double).extractLsb' 52 11 ≠ 0x7FF := by decide

theorem witness_ClsUnderflow :
    unbiased64 0x3E60000000000000 = -25 ∧ unbiased64 0x3690000000000000 = -150 ∧
    ((0x0000000000000001 : Double).extractLsb' 52 11 = 0 ∧
      ¬ ((0x0000000000000001 : Double).extractLsb' 52 11 = 0 ∧
        (0x0000000000000001 : Double).extractLsb' 0 52 = 0)) := by decide

/-- One input for each label (P2). -/
theorem witness_Cls16AgreesWithEnc16 :
    classify binary16 0x40EFFC0000000000 = .exact ∧ classify binary16 0x40EFFE0000000000 = .inexact ∧
    classify binary16 0xC0F0000000000000 = .overflow ∧ classify binary16 0xBE68000000000000 = .underflow := by
  decide

theorem witness_Cls16ExactIffBinary16Value : val64 0x3E70000000000000 = .finite false (powerOfTwo (-24)) := by
  decide +kernel

/-- One input for each label (section 5). -/
theorem witness_Cls32AgreesWithNarrowing :
    classify binary32 0x36A0000000000000 = .exact ∧ classify binary32 0x47EFFFFFF0000000 = .inexact ∧
    classify binary32 0xC7F0000000000000 = .overflow ∧ classify binary32 0x3690000000000000 = .underflow := by
  decide

theorem witness_LabelsPromiseNoConverse :
    val64 0xC0EFFE0000000000 = .finite true (65520 * powerOfTwo 0) ∧
    (val64 0x3E60000000000001 = .finite false (powerOfTwo (-25) + powerOfTwo (-77)) ∧
      powerOfTwo (-25) + powerOfTwo (-77) < powerOfTwo (-24)) ∧
    val64 0x3E60000000000000 = .finite false (powerOfTwo (-25)) := by decide +kernel

theorem witness_StepKeepsTheBufferWellFormed :
    State.Inv { s6 with requests := [⟨0xD, 0x3FF0000000000000, 0⟩] } ∧
    ∃ t, step { s6 with requests := [⟨0xD, 0x3FF0000000000000, 0⟩] } = .next t := ⟨by decide, _, rfl⟩

theorem witness_StepKeepsReportsTrue :
    State.ReportsAreTrue { s6 with requests := [⟨0x4, 0, 4⟩], responses := [.raised (.bufferRange 3)] } ∧
    ∃ t, step { s6 with requests := [⟨0x4, 0, 4⟩], responses := [.raised (.bufferRange 3)] } = .next t := by
  refine ⟨fun off h => ?_, _, rfl⟩
  obtain rfl : off = 3 := by simpa [s6, withBuf] using h
  decide

theorem witness_EveryRequestEndsOneOfThreeWays :
    Request.wellFormed ⟨0xC, 0, 2⟩ = true ∧ Request.wellFormed ⟨0xC, 0, 3⟩ = true ∧
    Request.wellFormed ⟨0x6, 0, 3⟩ = false := by decide

theorem witness_RunAnswersEveryRequest :
    ∀ r ∈ { s6 with requests := [⟨0x0, 0x3C00, 0⟩, ⟨0xC, 0, 3⟩] }.requests, r.wellFormed = true := by decide

/-- A store at offsets 0 and 1, and the byte at 2. -/
theorem witness_RunKeepsUntouchedBytes :
    (∀ r ∈ { s6 with requests := [⟨0xD, 0, 0⟩] }.requests, ∀ le off d,
      decode r = .ok (.encst16 le off d) → ¬ touches off 2) ∧
    ∃ t, Host.Core.run Sys2Proof.core 2 { s6 with requests := [⟨0xD, 0, 0⟩] } = .next t := by
  refine ⟨fun r hr le off d h => ?_, _, rfl⟩
  obtain rfl : r = ⟨0xD, 0, 0⟩ := by simpa using hr
  obtain ⟨-, rfl, -⟩ : ByteOrder.little = le ∧ 0 = off ∧ (0 : Double) = d := by
    simpa [decode, opField, orderField] using h
  decide

theorem witness_UnwrittenBytesAreRead :
    6 + 2 ≤ State.reset.bufLen ∧ Memory.lookup State.reset.buf 6 = none ∧
    Memory.lookup State.reset.buf (6 + 1) = none := by decide

end Sys2Proof.Tests
end

/-! PROOFS. The rules of the scope (spec/00_scope.md): the classes of the patterns (R3), the one NaN (R4) and the codes
of the labels (R6). -/

namespace Sys2Proof.Machine

/-! ### How a value form completes

A value form completes with one `y` in every state, so a statement about its completion is one about a function of its
operand. -/

theorem next_respond_result_inj (s : State) (y z : Double) :
    (.next (s.respond (.result y)) : Host.Outcome State Fault Refusal) =
      .next { s with responses := .result z :: s.responses } ↔ y = z := by
  simp [State.respond]

theorem completesWith_dec16_iff (h : Half) (s : State) (y : Double) :
    completesWith (.dec16 h) s y ↔ decodePattern h = y := next_respond_result_inj s _ y

theorem completesWith_enc16_iff (d : Double) (s : State) (y : Double) :
    completesWith (.enc16 d) s y ↔ placeHalf (encodePattern d) = y := next_respond_result_inj s _ y

theorem completesWith_cls16_iff (d : Double) (s : State) (y : Double) :
    completesWith (.cls16 d) s y ↔ placeLabel (classify binary16 d) = y := next_respond_result_inj s _ y

theorem completesWith_cls32_iff (d : Double) (s : State) (y : Double) :
    completesWith (.cls32 d) s y ↔ placeLabel (classify binary32 d) = y := next_respond_result_inj s _ y

/-! ### The classes of the table of R3 -/

section Classes
variable (T : Format) (s : Bool) {e m : Nat}

theorem valueOf_zero : valueOf T s 0 0 = .zero s := rfl

theorem valueOf_subnormal (hm : m ≠ 0) : valueOf T s 0 m = .finite s (m * 2 ^ unitShift T) := by
  simp [valueOf, hm]

theorem valueOf_normal (he : e ≠ 0) (hlt : e ≠ allOnes T) :
    valueOf T s e m = .finite s ((2 ^ T.w + m) * 2 ^ (e - 1 + unitShift T)) := by
  simp [valueOf, he, hlt]

theorem valueOf_infinite (hT : allOnes T ≠ 0) : valueOf T s (allOnes T) 0 = .infinite s := by
  simp [valueOf, hT]

theorem valueOf_nan (hT : allOnes T ≠ 0) (hm : m ≠ 0) : valueOf T s (allOnes T) m = .nan := by
  simp [valueOf, hT, hm]

end Classes

/-- What the rows of R1 have in common: the unit of the subnormals is 2^−1074 or more, and there is an exponent field
beside 0. -/
theorem format_bounds : ∀ T ∈ [binary16, binary32, binary64], T.bias + T.w ≤ 1075 ∧ allOnes T ≠ 0 := by
  decide

/-- Settles O11: each class by its `valueOf` lemma, its rational number by the law of its magnitude. -/
theorem patternsMeanWhatTheTableSays : Obligations.PatternsMeanWhatTheTableSays := by
  refine ⟨fun _ => rfl, fun _ => rfl, fun _ => rfl, fun T hT s e m => ?_⟩
  obtain ⟨hunit, hones⟩ := format_bounds T hT
  refine ⟨?zero, ?subnormal, ?normal, ?infinite, ?nan⟩
  case zero =>
    rintro rfl rfl
    exact valueOf_zero T s
  case subnormal =>
    rintro rfl hm
    exact ⟨_, valueOf_subnormal T s hm, subnormal_magnitude T hunit m⟩
  case normal =>
    intro hpos hlt
    exact ⟨_, valueOf_normal T s hpos.ne' hlt.ne, normal_magnitude T hunit hpos.ne' m⟩
  case infinite =>
    rintro rfl rfl
    exact valueOf_infinite T s hones
  case nan =>
    rintro rfl hm
    exact valueOf_nan T s hones hm

/-! ### NaN patterns (R4) -/

theorem isNaN16_iff (h : Half) : isNaN16 h = true ↔ exp16 h = 31 ∧ man16 h ≠ 0 := by
  simp [isNaN16]

theorem isNaN64_iff (d : Double) : isNaN64 d = true ↔ exp64 d = 2047 ∧ man64 d ≠ 0 := by
  simp [isNaN64]

theorem isNaN64_pack64 (s : Bool) (e f : Nat) :
    isNaN64 (pack64 s e f) = true ↔ e % 2 ^ 11 = 2047 ∧ f % 2 ^ 52 ≠ 0 := by
  rw [isNaN64_iff, exp64_pack64, man64_pack64]

/-- A magnitude field up to that of infinity is no NaN's. -/
theorem isNaN16_pack16_of_le (s : Bool) {r : Nat} (hr : r ≤ infinityMagnitude) :
    isNaN16 (pack16 s r) = false := by
  rw [Bool.eq_false_iff, Ne, isNaN16_iff, exp16_pack16, man16_pack16]
  unfold infinityMagnitude at hr
  omega

theorem msb_man16_lt (h : Half) (hm : man16 h ≠ 0) : msb (man16 h) < 10 :=
  (Nat.log2_lt hm).2 (man16_lt h)

theorem decodePattern_of_nan {h : Half} (hn : isNaN16 h = true) : decodePattern h = canonNaN64 := by
  obtain ⟨he, hm⟩ := (isNaN16_iff h).1 hn
  simp [decodePattern, he, hm]

/-- DEC16 gives a NaN for the NaN patterns and for no other: the exponent fields of the other cases of R61 stay below
2047, but for an infinity, whose mantissa field is 0. -/
theorem isNaN64_decodePattern (h : Half) : isNaN64 (decodePattern h) = isNaN16 h := by
  cases hn : isNaN16 h
  case true => rw [decodePattern_of_nan hn]; decide
  case false =>
    have hne : ¬ (exp16 h = 31 ∧ man16 h ≠ 0) := by rw [← isNaN16_iff, hn]; decide
    have hlt := exp16_lt h
    rw [Bool.eq_false_iff, decodePattern]
    split_ifs with hzero hsub hinf hnan
    · simp [isNaN64_pack64]
    · have := msb_man16_lt h fun hm => hzero ⟨hsub, hm⟩
      rw [Ne, isNaN64_pack64]
      omega
    · simp [isNaN64_pack64]
    · exact absurd ⟨hnan, fun hm => hinf ⟨hnan, hm⟩⟩ hne
    · rw [Ne, isNaN64_pack64]
      omega

theorem sig64_lt (d : Double) : sig64 d < 2 ^ 53 := by
  have := man64_lt d
  unfold sig64
  omega

/-- Rounding a number of at most `sh + k` bits at the place `sh` gives at most 2^k (R75). -/
theorem rne_le_two_pow {sig sh k : Nat} (h : sig < 2 ^ (sh + k)) : rne sig sh ≤ 2 ^ k := by
  have hq : sig / 2 ^ sh < 2 ^ k := Nat.div_lt_of_lt_mul (by rwa [← pow_add])
  rcases rne_cases sig sh with ⟨-, h⟩ | ⟨-, h⟩ <;> omega

theorem encodePattern_of_nan {d : Double} (hn : isNaN64 d = true) : encodePattern d = canonNaN16 :=
  if_pos ((isNaN64_iff d).1 hn)

/-- Off NaN the result of ENC16 is the input's sign above a magnitude field that never passes infinity's (R72 to
R78). -/
theorem encodePattern_of_not_nan {d : Double} (hn : isNaN64 d = false) :
    ∃ r ≤ infinityMagnitude, encodePattern d = pack16 (sign64 d) r := by
  have hne : ¬ (exp64 d = 2047 ∧ man64 d ≠ 0) := by rw [← isNaN64_iff, hn]; decide
  have hsig := sig64_lt d
  rw [encodePattern, if_neg hne]
  split_ifs with hinf hzero hover hnormal hsub
  · exact ⟨_, le_rfl, rfl⟩
  · exact ⟨0, Nat.zero_le _, rfl⟩
  · exact ⟨_, le_rfl, rfl⟩
  · refine ⟨_, ?_, rfl⟩
    have hrne : rne (sig64 d) 42 ≤ 2 ^ 11 := rne_le_two_pow hsig
    rw [Nat.shiftLeft_eq, infinityMagnitude]
    omega
  · refine ⟨_, ?_, rfl⟩
    have hrne : rne (sig64 d) (28 - unbiased64 d).toNat ≤ 2 ^ 10 :=
      rne_le_two_pow (hsig.trans_le (Nat.pow_le_pow_right two_pos (by omega)))
    exact hrne.trans (by decide)
  · exact ⟨0, Nat.zero_le _, rfl⟩

/-- ENC16 gives a NaN pattern for the NaN patterns and for no other. -/
theorem isNaN16_encodePattern (d : Double) : isNaN16 (encodePattern d) = isNaN64 d := by
  cases hn : isNaN64 d
  case true => rw [encodePattern_of_nan hn]; decide
  case false =>
    obtain ⟨r, hr, hd⟩ := encodePattern_of_not_nan hn
    rw [hd, isNaN16_pack16_of_le _ hr]

theorem classify_of_nan (T : Format) {d : Double} (hn : isNaN64 d = true) : classify T d = .exact :=
  if_pos ((isNaN64_iff d).1 hn).1

/-- ENCST16 sees its operand through the encoded pattern alone. -/
theorem exec_encst16_congr {d₁ d₂ : Double} (h : encodePattern d₁ = encodePattern d₂) (le : ByteOrder) (off : Nat)
    (s : State) : exec (.encst16 le off d₁) s = exec (.encst16 le off d₂) s := by
  simp only [exec, execEncst16, h]

@[simp] theorem extractLsb'_placeHalf (h : Half) : (placeHalf h).extractLsb' 0 16 = h := by
  apply BitVec.eq_of_toNat_eq
  simpa [placeHalf] using h.isLt

/-- Settles O29: on input, decoder, encoder and classifier are constant on NaN patterns; on output a NaN comes from a
NaN pattern only. -/
theorem oneNaN : Obligations.OneNaN := by
  refine ⟨fun h₁ h₂ s hn₁ hn₂ => ?decIn, fun d₁ d₂ le off s hn₁ hn₂ => ?binary64In, fun h s y hy hn => ?decOut,
    fun d s y hy hn => ?encOut⟩
  case decIn =>
    refine ⟨canonNaN64, by decide, ?_, ?_⟩
    · exact (completesWith_dec16_iff _ _ _).2 (decodePattern_of_nan hn₁)
    · exact (completesWith_dec16_iff _ _ _).2 (decodePattern_of_nan hn₂)
  case binary64In =>
    have henc : encodePattern d₁ = encodePattern d₂ := by
      rw [encodePattern_of_nan hn₁, encodePattern_of_nan hn₂]
    have hcls (T : Format) : classify T d₁ = classify T d₂ := by
      rw [classify_of_nan T hn₁, classify_of_nan T hn₂]
    refine ⟨?_, ?_, ?_, exec_encst16_congr henc le off s⟩
    · rw [exec_enc16, exec_enc16, henc]
    · rw [exec_cls16, exec_cls16, hcls]
    · rw [exec_cls32, exec_cls32, hcls]
  case decOut =>
    obtain rfl := (completesWith_dec16_iff h s y).1 hy
    rw [isNaN64_decodePattern] at hn
    exact decodePattern_of_nan hn
  case encOut =>
    obtain rfl := (completesWith_enc16_iff d s y).1 hy
    rw [extractLsb'_placeHalf, isNaN16_encodePattern] at hn
    rw [encodePattern_of_nan hn]
    decide

/-! ### Label codes (R6) -/

/-- Settles O46: the label shown is the classifier's own. -/
theorem clsShowsOneOfFourCodes : Obligations.ClsShowsOneOfFourCodes := by
  refine ⟨rfl, rfl, rfl, rfl, fun d s => ⟨⟨classify binary16 d, ?_⟩, ⟨classify binary32 d, ?_⟩⟩⟩
  · exact (completesWith_cls16_iff _ _ _).2 rfl
  · exact (completesWith_cls32_iff _ _ _).2 rfl

end Sys2Proof.Machine

/-! PROOFS. The state and its history (spec/10_state.md): what an operation answers and leaves in the buffer is settled
by the buffer and its length (R29). -/

namespace Sys2Proof.Machine

/-- For each operation one next buffer and one answer go with a buffer and its length, and every state that holds them
goes to that buffer and receives that answer: the operation "keeps no history" (R29). -/
theorem exec_eq_next_of_buffer (i : Instr) (m : Memory) (n : Nat) :
    ∃ (m' : Memory) (r : Response), ∀ s : State, s.buf = m → s.bufLen = n →
      exec i s = .next (State.respond { s with buf := m' } r) := by
  cases i with
  | dec16 h => exact ⟨m, .result (decodePattern h), fun s hm _ => hm ▸ exec_dec16 h s⟩
  | enc16 d => exact ⟨m, .result (placeHalf (encodePattern d)), fun s hm _ => hm ▸ exec_enc16 d s⟩
  | cls16 d => exact ⟨m, .result (placeLabel (classify binary16 d)), fun s hm _ => hm ▸ exec_cls16 d s⟩
  | cls32 d => exact ⟨m, .result (placeLabel (classify binary32 d)), fun s hm _ => hm ▸ exec_cls32 d s⟩
  | lddec16 le off =>
    rcases Nat.lt_or_ge n (off + 2) with hout | hin
    · refine ⟨m, .raised (.bufferRange off), ?_⟩
      rintro s rfl rfl
      exact ((exec_lddec16_cases le off s).resolve_left fun h => hout.not_ge h.1).2
    · refine ⟨m, .result (decodePattern (heldPattern le m off)), ?_⟩
      rintro s rfl rfl
      exact ((exec_lddec16_cases le off s).resolve_right fun h => hin.not_gt h.1).2
  | encst16 le off d =>
    rcases Nat.lt_or_ge n (off + 2) with hout | hin
    · refine ⟨m, .raised (.bufferRange off), ?_⟩
      rintro s rfl rfl
      exact ((exec_encst16_cases le off d s).resolve_left fun h => hout.not_ge h.1).2
    · refine ⟨Memory.writeBytes m off 2 (inByteOrder le (encodePattern d)).toNat,
        .result (placeHalf (encodePattern d)), ?_⟩
      rintro s rfl rfl
      exact ((exec_encst16_cases le off d s).resolve_right fun h => hin.not_gt h.1).2

/-- Settles O40: both states go to the buffer and receive the answer that `exec_eq_next_of_buffer` names. -/
theorem sameRequestSameAnswer : Obligations.SameRequestSameAnswer := by
  intro i s q t hbuf hlen ht
  obtain ⟨m, r, hexec⟩ := exec_eq_next_of_buffer i q.buf q.bufLen
  rw [hexec s hbuf hlen] at ht
  obtain rfl := Host.Outcome.next.inj ht
  exact ⟨_, hexec q rfl rfl, rfl, hlen.symm, rfl, rfl, rfl⟩

end Sys2Proof.Machine

/-! PROOFS. The buffer (spec/20_memory.md): what an admitted store puts where and shows on `y` (R33, R81), which bytes
an access touches (R32), and what a sequence of accesses leaves (R41). -/

namespace Sys2Proof.Machine

/-! ### The buffer after a store -/

/-- The state after a 16-bit pattern is stored, before the answer: MemWrite of the pattern's two bytes in the order of
`le` (R34). -/
def State.store (s : State) (le : ByteOrder) (off : Nat) (h : Half) : State :=
  { s with buf := Memory.writeBytes s.buf off 2 (inByteOrder le h).toNat }

section Store
variable (s : State) (le : ByteOrder) (off : Nat) (h : Half)

@[simp] theorem store_bufLen : (s.store le off h).bufLen = s.bufLen := rfl
@[simp] theorem store_requests : (s.store le off h).requests = s.requests := rfl
@[simp] theorem store_responses : (s.store le off h).responses = s.responses := rfl

theorem readByte_store_of_touches {k : Nat} (hk : touches off k) :
    Memory.readByte (s.store le off h).buf k = storedByte le off h k :=
  (readByte_store s.buf off k le h).trans (if_pos hk)

theorem readByte_store_of_not_touches {k : Nat} (hk : ¬ touches off k) :
    Memory.readByte (s.store le off h).buf k = Memory.readByte s.buf k :=
  (readByte_store s.buf off k le h).trans (if_neg hk)

@[simp] theorem storedByte_little_first : storedByte .little off h off = h.extractLsb' 0 8 := if_pos rfl
@[simp] theorem storedByte_big_first : storedByte .big off h off = h.extractLsb' 8 8 := if_pos rfl
@[simp] theorem storedByte_little_second : storedByte .little off h (off + 1) = h.extractLsb' 8 8 :=
  if_neg off.succ_ne_self
@[simp] theorem storedByte_big_second : storedByte .big off h (off + 1) = h.extractLsb' 0 8 :=
  if_neg off.succ_ne_self

end Store

/-- Two buffers with the same two bytes at an offset hold the same pattern there. -/
theorem heldPattern_congr (le : ByteOrder) {m n : Memory} {off : Nat}
    (h : ∀ k, touches off k → Memory.readByte m k = Memory.readByte n k) :
    heldPattern le m off = heldPattern le n off := by
  have hfirst := h off (.inl rfl)
  have hsecond := h (off + 1) (.inr rfl)
  cases le <;> simp only [heldPattern, hfirst, hsecond]

/-! ### The buffer forms by the bound -/

section Access
variable {s : State} {le : ByteOrder} {off : Nat}

theorem exec_lddec16_of_le (hin : off + 2 ≤ s.bufLen) :
    exec (.lddec16 le off) s = .next (s.respond (.result (decodePattern (heldPattern le s.buf off)))) :=
  ((exec_lddec16_cases le off s).resolve_right fun h => hin.not_gt h.1).2

theorem exec_encst16_of_le (d : Double) (hin : off + 2 ≤ s.bufLen) :
    exec (.encst16 le off d) s =
      .next ((s.store le off (encodePattern d)).respond (.result (placeHalf (encodePattern d)))) :=
  ((exec_encst16_cases le off d s).resolve_right fun h => hin.not_gt h.1).2

/-- A load completes when it is admitted and not otherwise, with the decoding of the pattern it reads (R37, R67). -/
theorem completesWith_lddec16_iff (y : Double) :
    completesWith (.lddec16 le off) s y ↔
      off + 2 ≤ s.bufLen ∧ decodePattern (heldPattern le s.buf off) = y := by
  rcases exec_lddec16_cases le off s with ⟨hin, hexec⟩ | ⟨hout, hexec⟩
  · rw [completesWith, hexec, next_respond_result_inj]
    exact (and_iff_right hin).symm
  · rw [completesWith, hexec]
    constructor
    · intro h
      simp [State.respond] at h
    · rintro ⟨hin, -⟩
      omega

/-- A store, admitted or not, leaves every byte but its two as it was (R32, R36). -/
theorem readByte_of_exec_encst16 {t : State} {d : Double} (h : exec (.encst16 le off d) s = .next t)
    {k : Nat} (hk : ¬ touches off k) : Memory.readByte t.buf k = Memory.readByte s.buf k := by
  rcases exec_encst16_cases le off d s with ⟨hin, -⟩ | ⟨-, hexec⟩
  · rw [exec_encst16_of_le d hin] at h
    obtain rfl := Host.Outcome.next.inj h
    exact readByte_store_of_not_touches s le off _ hk
  · rw [hexec] at h
    obtain rfl := Host.Outcome.next.inj h
    rfl

end Access

/-! ### The statements -/

/-- Settles O30: the next state is `State.store` of the encoded pattern with the pattern as the answer. -/
theorem encst16StoresInByteOrder : Obligations.Encst16StoresInByteOrder := by
  intro s le off d hin
  have hfirst := readByte_store_of_touches s le off (encodePattern d) (.inl rfl)
  have hsecond := readByte_store_of_touches s le off (encodePattern d) (.inr rfl)
  refine ⟨_, encodePattern d, (completesWith_enc16_iff d s _).2 rfl, exec_encst16_of_le d hin, rfl, rfl, rfl,
    ?little, ?big, fun k hk => readByte_store_of_not_touches s le off _ hk⟩
  case little =>
    rintro rfl
    exact ⟨hfirst.trans (storedByte_little_first off _), hsecond.trans (storedByte_little_second off _)⟩
  case big =>
    rintro rfl
    exact ⟨hfirst.trans (storedByte_big_first off _), hsecond.trans (storedByte_big_second off _)⟩

/-- Settles O35: the buffer after both requests is two `State.store`s, one on the other, so each byte is read by the
rules of the later store first; the load between them only adds its answer. -/
theorem accessesHappenInRequestOrder : Obligations.AccessesHappenInRequestOrder := by
  intro s le₁ le₂ off₁ off₂ d₁ d₂ hin₁ hin₂
  refine ⟨_, _, exec_encst16_of_le d₁ hin₁, exec_encst16_of_le d₂ hin₂, ?later, ?earlier, ?neither, ?load⟩
  case later =>
    intro k hk
    exact readByte_store_of_touches _ le₂ off₂ _ hk
  case earlier =>
    intro k hk₁ hk₂
    calc
      _ = Memory.readByte (s.store le₁ off₁ (encodePattern d₁)).buf k :=
        readByte_store_of_not_touches _ le₂ off₂ _ hk₂
      _ = storedByte le₁ off₁ (encodePattern d₁) k := readByte_store_of_touches s le₁ off₁ _ hk₁
  case neither =>
    intro k hk₁ hk₂
    calc
      _ = Memory.readByte (s.store le₁ off₁ (encodePattern d₁)).buf k :=
        readByte_store_of_not_touches _ le₂ off₂ _ hk₂
      _ = Memory.readByte s.buf k := readByte_store_of_not_touches s le₁ off₁ _ hk₁
  case load =>
    intro le off hin
    exact ⟨_, _, exec_lddec16_of_le hin, exec_encst16_of_le d₂ hin₂, rfl, _,
      (completesWith_dec16_iff _ _ _).2 rfl, rfl⟩

/-- Settles O37: a store by its frame; a load because the bound and the pattern it reads settle how it completes. -/
theorem accessTouchesTwoBytes : Obligations.AccessTouchesTwoBytes := by
  refine ⟨fun s t le off d hexec k hk => readByte_of_exec_encst16 hexec hk, fun s t le off y hlen hbytes => ?load⟩
  case load =>
    rw [completesWith_lddec16_iff, completesWith_lddec16_iff, hlen, heldPattern_congr le hbytes]
    exact id

end Sys2Proof.Machine

/-! PROOFS. The encoding (spec/30_encoding.md): which operation a command word selects (R46, R47, R50), which inputs
reach it (R48), where its result sits on `y` (R49) and what the source's own names stand for (R54). -/

namespace Sys2Proof

/-! ### The decoder by the operation code -/

/-- The masked command word of a row of R47 is the row's `op`. -/
theorem opField_of_masked : ∀ {cmd : BitVec 4} {op : BitVec 3}, cmd &&& 0x7 = op.setWidth 4 → opField cmd = op := by
  decide

/-- The byte order of a command word put together from its two fields (R46). -/
theorem orderField_append : ∀ (le : ByteOrder) (op : BitVec 3), orderField (le.bit ++ op) = le
  | .big => by decide
  | .little => by decide

section Decode
variable {r : Request}

theorem decode_of_op_dec16 (hop : opField r.cmd = 0) : decode r = .ok (.dec16 (r.a.extractLsb' 0 16)) := by
  simp [decode, hop]

theorem decode_of_op_enc16 (hop : opField r.cmd = 1) : decode r = .ok (.enc16 r.a) := by
  simp [decode, hop]

theorem decode_of_op_cls16 (hop : opField r.cmd = 2) : decode r = .ok (.cls16 r.a) := by
  simp [decode, hop]

theorem decode_of_op_cls32 (hop : opField r.cmd = 3) : decode r = .ok (.cls32 r.a) := by
  simp [decode, hop]

theorem decode_of_op_lddec16 {le : ByteOrder} (hop : opField r.cmd = 4) (hle : orderField r.cmd = le) :
    decode r = .ok (.lddec16 le r.off) := by
  simp [decode, hop, hle]

theorem decode_of_op_encst16 {le : ByteOrder} (hop : opField r.cmd = 5) (hle : orderField r.cmd = le) :
    decode r = .ok (.encst16 le r.off r.a) := by
  simp [decode, hop, hle]

theorem decode_of_op_reserved {op : BitVec 3} (hop : opField r.cmd = op) (hres : op = 6 ∨ op = 7) :
    decode r = .error (.reservedOp op) := by
  rcases hres with rfl | rfl <;> simp [decode, hop]

/-- The rows of R47 that are not reserved. -/
theorem op_cases_of_not_reserved : ∀ op : BitVec 3, op ≠ 6 ∧ op ≠ 7 →
    op = 0 ∨ op = 1 ∨ op = 2 ∨ op = 3 ∨ op = 4 ∨ op = 5 := by
  decide

/-- Every value of every input is legal once the `op` is not reserved (R48, R50). -/
theorem exists_decode_eq_ok_of_wellFormed (hwf : r.wellFormed = true) : ∃ i, decode r = .ok i := by
  have hop : opField r.cmd ≠ 6 ∧ opField r.cmd ≠ 7 := by simpa [Request.wellFormed] using hwf
  rcases op_cases_of_not_reserved _ hop with hop | hop | hop | hop | hop | hop
  · exact ⟨_, decode_of_op_dec16 hop⟩
  · exact ⟨_, decode_of_op_enc16 hop⟩
  · exact ⟨_, decode_of_op_cls16 hop⟩
  · exact ⟨_, decode_of_op_cls32 hop⟩
  · exact ⟨_, decode_of_op_lddec16 hop rfl⟩
  · exact ⟨_, decode_of_op_encst16 hop rfl⟩

/-- The byte order is read off `CMD[3]` alone (R46). -/
theorem orderField_congr {c d : BitVec 4} (h : c.getLsbD 3 = d.getLsbD 3) : orderField c = orderField d := by
  rw [orderField, orderField, h]

end Decode

/-! ### Lines of the listing -/

/-- A line's name reaches the request through the form it belongs to, whether it takes data, and its `op`. -/
theorem request_congr_name {n₁ n₂ : LineName} (hform : n₁.isBufferForm = n₂.isBufferForm)
    (hdata : n₁.takesData = n₂.takesData) (hop : n₁.op = n₂.op) (order : Option ByteOrder) (off a : Option Nat) :
    Line.request ⟨n₁, order, off, a⟩ = Line.request ⟨n₂, order, off, a⟩ := by
  have hwf : Line.wellFormed ⟨n₁, order, off, a⟩ = Line.wellFormed ⟨n₂, order, off, a⟩ := by
    simp only [Line.wellFormed, hform, hdata]
  simp only [Line.request, hwf, hop]

end Sys2Proof

namespace Sys2Proof.Machine

/-! ### The step by the decoded request -/

/-- A step sees its request through the decoder alone (R52, R118). -/
theorem step_congr_of_decode_eq (s : State) {r q : Request} (rest : List Request) (h : decode r = decode q) :
    step { s with requests := r :: rest } = step { s with requests := q :: rest } := by
  simp only [step, h]

theorem step_of_decode_error {s : State} {r : Request} {rest : List Request} {op : BitVec 3}
    (hreq : s.requests = r :: rest) (hdec : decode r = .error (.reservedOp op)) :
    step s = .refused (.reservedOp op) := by
  simp only [step, hreq, hdec]

/-! ### Results on the port (R49) -/

theorem placeHalf_zeroExtends (h : Half) :
    (placeHalf h).extractLsb' 0 16 = h ∧ (placeHalf h).extractLsb' 16 48 = 0 := by
  refine ⟨extractLsb'_placeHalf h, ?_⟩
  ext k hk
  simp [placeHalf]

theorem placeLabel_zeroExtends (l : Label) :
    (placeLabel l).extractLsb' 0 2 = labelCode l ∧ (placeLabel l).extractLsb' 2 62 = 0 := by
  cases l <;> decide

section Ports
variable {u t : State} {P : Double → Prop}

/-- After a completion `fault` is not 1, and `y` shows the result. -/
theorem ports_of_next_result {z : Double}
    (h : (.next (u.respond (.result z)) : Host.Outcome State Fault Refusal) = .next t) (hz : P z) :
    (t.faultPort = some 1 → t.yPort = none) ∧ ∀ y, t.yPort = some y → P y := by
  obtain rfl := Host.Outcome.next.inj h
  simp [Response.fault, Response.y, hz]

/-- After an exception `y` shows no value. -/
theorem ports_of_next_raised {e : Exc}
    (h : (.next (u.respond (.raised e)) : Host.Outcome State Fault Refusal) = .next t) :
    (t.faultPort = some 1 → t.yPort = none) ∧ ∀ y, t.yPort = some y → P y := by
  obtain rfl := Host.Outcome.next.inj h
  simp [Response.y]

end Ports

/-! ### The statements -/

/-- Settles O5: where the inputs an operation reads agree, the two requests decode to the same operation, and a step
sees no more of a request than that. -/
theorem ignoredInputsHaveNoEffect : Obligations.IgnoredInputsHaveNoEffect := by
  intro s r q rest hop
  refine ⟨?dec16, ?binary64In, ?lddec16, exists_decode_eq_ok_of_wellFormed⟩
  case dec16 =>
    intro h0 ha
    apply step_congr_of_decode_eq
    rw [decode_of_op_dec16 h0, decode_of_op_dec16 (hop ▸ h0), ha]
  case binary64In =>
    intro hops ha
    apply step_congr_of_decode_eq
    rcases hops with h1 | h2 | h3
    · rw [decode_of_op_enc16 h1, decode_of_op_enc16 (hop ▸ h1), ha]
    · rw [decode_of_op_cls16 h2, decode_of_op_cls16 (hop ▸ h2), ha]
    · rw [decode_of_op_cls32 h3, decode_of_op_cls32 (hop ▸ h3), ha]
  case lddec16 =>
    intro h4 hle hoff
    apply step_congr_of_decode_eq
    rw [decode_of_op_lddec16 h4 (orderField_congr hle), decode_of_op_lddec16 (hop ▸ h4) rfl, hoff]

/-- Settles O41: by how each operation completes; the encoded pattern and the label code are the low bits of their
placement, with zeros above. -/
theorem resultsAreZeroExtended : Obligations.ResultsAreZeroExtended := by
  intro i s t ht
  cases i with
  | dec16 h => exact ports_of_next_result (exec_dec16 h s ▸ ht) rfl
  | enc16 d => exact ports_of_next_result (exec_enc16 d s ▸ ht) (placeHalf_zeroExtends _)
  | cls16 d => exact ports_of_next_result (exec_cls16 d s ▸ ht) (placeLabel_zeroExtends _)
  | cls32 d => exact ports_of_next_result (exec_cls32 d s ▸ ht) (placeLabel_zeroExtends _)
  | lddec16 le off =>
    rcases exec_lddec16_cases le off s with ⟨-, hexec⟩ | ⟨-, hexec⟩
    · exact ports_of_next_result (hexec ▸ ht) rfl
    · exact ports_of_next_raised (hexec ▸ ht)
  | encst16 le off d =>
    rcases exec_encst16_cases le off d s with ⟨-, hexec⟩ | ⟨-, hexec⟩
    · exact ports_of_next_result (hexec ▸ ht) (placeHalf_zeroExtends _)
    · exact ports_of_next_raised (hexec ▸ ht)

/-- Settles O1: each match of the table fixes `op`, and `op` selects the row. -/
theorem opcodeMapSelectsOperation : Obligations.OpcodeMapSelectsOperation := by
  intro r
  exact ⟨fun h => decode_of_op_dec16 (opField_of_masked h), fun h => decode_of_op_enc16 (opField_of_masked h),
    fun h => decode_of_op_cls16 (opField_of_masked h), fun h => decode_of_op_cls32 (opField_of_masked h),
    fun h => decode_of_op_lddec16 (opField_of_masked h) rfl,
    fun h => decode_of_op_encst16 (opField_of_masked h) rfl,
    fun h => decode_of_op_reserved (opField_of_masked h) (.inl rfl),
    fun h => decode_of_op_reserved (opField_of_masked h) (.inr rfl)⟩

/-- Settles O2: each word is its `le` bit above its `op` (R46), so its two fields are read back as written. -/
theorem commandWordsReadAsTheTableSays : Obligations.CommandWordsReadAsTheTableSays := by
  intro a off
  exact ⟨decode_of_op_dec16 (Laws.opField_append 0 0), decode_of_op_dec16 (Laws.opField_append 1 0),
    decode_of_op_enc16 (Laws.opField_append 0 1), decode_of_op_enc16 (Laws.opField_append 1 1),
    decode_of_op_cls16 (Laws.opField_append 0 2), decode_of_op_cls16 (Laws.opField_append 1 2),
    decode_of_op_cls32 (Laws.opField_append 0 3), decode_of_op_cls32 (Laws.opField_append 1 3),
    decode_of_op_lddec16 (Laws.opField_append 0 4) (orderField_append .big 4),
    decode_of_op_lddec16 (Laws.opField_append 1 4) (orderField_append .little 4),
    decode_of_op_encst16 (Laws.opField_append 0 5) (orderField_append .big 5),
    decode_of_op_encst16 (Laws.opField_append 1 5) (orderField_append .little 5)⟩

/-- Settles O6: each of the four words has a reserved `op`, which the decoder rejects before any operand is read. -/
theorem reservedOperationsAreRefused : Obligations.ReservedOperationsAreRefused := by
  intro s r rest hreq hcmd
  have hop : opField r.cmd = 6 ∨ opField r.cmd = 7 := by
    rcases hcmd with h | h | h | h <;> rw [h] <;> decide
  exact step_of_decode_error hreq (decode_of_op_reserved rfl hop)

/-- Settles O9: the source's name and the mnemonic it expands to are of one form and have one `op`. -/
theorem aliasesExpandToOneOperation : Obligations.AliasesExpandToOneOperation := by
  intro le off a
  refine ⟨?_, ?_, ?_, ?_⟩ <;> exact request_congr_name rfl rfl rfl _ _ _

end Sys2Proof.Machine

/-! PROOFS. The decoder (spec/40_decoder.md): the result of DEC16 in each case of R61, and that it has the input's
value and is the one pattern that has it (R65). -/

namespace Sys2Proof.Machine

/-! ### The fields of a binary16 pattern as bit vectors (R2) -/

section Fields
variable (h : Half)

theorem exp16_eq_toNat_iff (x : BitVec 5) : exp16 h = x.toNat ↔ h.extractLsb' 10 5 = x := BitVec.toNat_inj

theorem man16_eq_toNat_iff (x : BitVec 10) : man16 h = x.toNat ↔ h.extractLsb' 0 10 = x := BitVec.toNat_inj

theorem ofBool_sign16 : BitVec.ofBool (sign16 h) = h.extractLsb' 15 1 := by
  ext k hk
  obtain rfl : k = 0 := by omega
  simp [sign16, BitVec.getElem_ofBool]

end Fields

/-- A zero mantissa field is the low end of a row of 63 zeros. -/
theorem append_zero_append_zero : ∀ x : BitVec 1, x ++ 0#11 ++ 0#52 = x ++ 0#63 := by decide

/-- A field above `k` zeros is the field moved up by `k` places. -/
theorem ofNat_mul_two_pow {w : Nat} (m : BitVec w) (k : Nat) :
    BitVec.ofNat (w + k) (m.toNat * 2 ^ k) = m ++ 0#k := by
  apply BitVec.eq_of_toNat_eq
  have hlt : m.toNat * 2 ^ k < 2 ^ (w + k) := by
    rw [pow_add]
    exact Nat.mul_lt_mul_of_pos_right m.isLt (Nat.two_pow_pos k)
  rw [BitVec.toNat_ofNat, Nat.mod_eq_of_lt hlt, BitVec.toNat_append, BitVec.toNat_ofNat, Nat.zero_mod, Nat.or_zero,
    Nat.shiftLeft_eq]

/-- The mantissa field of the normal case, `M` above 42 zeros (R61). -/
theorem append_ofNat_mul_two_pow (x : BitVec 12) (m : BitVec 10) :
    x ++ BitVec.ofNat 52 (m.toNat * 2 ^ 42) = x ++ m ++ 0#42 :=
  calc
    _ = x ++ (m ++ 0#42) := congrArg (x ++ ·) (ofNat_mul_two_pow m 42)
    _ = _ := BitVec.append_assoc'

/-- A mantissa field takes the low 52 bits of a number. -/
theorem pack64_mod (s : Bool) (e f : Nat) : pack64 s e (f % 2 ^ 52) = pack64 s e f := by
  apply BitVec.eq_of_toNat_eq
  rw [toNat_pack64, toNat_pack64, Nat.mod_mod]

/-- `msb(M)` is the one p of the closed form (R64). -/
theorem msb_eq_iff {m p : Nat} (hm : m ≠ 0) : msb m = p ↔ 2 ^ p ≤ m ∧ m < 2 ^ (p + 1) := Nat.log2_eq_iff hm

/-! ### The five cases of R61 -/

section Cases
variable {h : Half}

theorem decodePattern_of_zero (he : exp16 h = 0) (hm : man16 h = 0) :
    decodePattern h = pack64 (sign16 h) 0 0 := by
  simp [decodePattern, he, hm]

theorem decodePattern_of_subnormal (he : exp16 h = 0) {p : Nat} (hle : 2 ^ p ≤ man16 h)
    (hlt : man16 h < 2 ^ (p + 1)) :
    decodePattern h = pack64 (sign16 h) (p + 999) (man16 h * 2 ^ (52 - p)) := by
  have hm : man16 h ≠ 0 := ((Nat.two_pow_pos p).trans_le hle).ne'
  rw [decodePattern, if_neg fun hz => hm hz.2, if_pos he, (msb_eq_iff hm).2 ⟨hle, hlt⟩, Nat.shiftLeft_eq, pack64_mod]

theorem decodePattern_of_infinite (he : exp16 h = 31) (hm : man16 h = 0) :
    decodePattern h = pack64 (sign16 h) 2047 0 := by
  simp [decodePattern, he, hm]

theorem decodePattern_of_normal (hzero : exp16 h ≠ 0) (hones : exp16 h ≠ 31) :
    decodePattern h = pack64 (sign16 h) (exp16 h + 1008) (man16 h * 2 ^ 42) := by
  simp [decodePattern, hzero, hones, Nat.shiftLeft_eq]

end Cases

/-- Settles O12: each case by its equation for `decodePattern`, the fields put together as bit vectors. -/
theorem dec16FiveCases : Obligations.Dec16FiveCases := by
  intro h s
  simp only [completesWith_dec16_iff, ← ofBool_sign16]
  refine ⟨?zero, ?subnormal, ?infinity, ?nan, ?normal⟩
  case zero =>
    intro he hm
    rw [decodePattern_of_zero ((exp16_eq_toNat_iff h 0).2 he) ((man16_eq_toNat_iff h 0).2 hm)]
    exact append_zero_append_zero _
  case subnormal =>
    intro he p hle hlt
    exact decodePattern_of_subnormal ((exp16_eq_toNat_iff h 0).2 he) hle hlt
  case infinity =>
    intro he hm
    exact decodePattern_of_infinite ((exp16_eq_toNat_iff h 31).2 he) ((man16_eq_toNat_iff h 0).2 hm)
  case nan =>
    intro he hm
    have hn : isNaN16 h = true :=
      (isNaN16_iff h).2 ⟨(exp16_eq_toNat_iff h 31).2 he, mt (man16_eq_toNat_iff h 0).1 hm⟩
    exact ⟨canonNaN64, by decide, by decide, decodePattern_of_nan hn⟩
  case normal =>
    intro hzero hones
    rw [decodePattern_of_normal (mt (exp16_eq_toNat_iff h 0).1 hzero) (mt (exp16_eq_toNat_iff h 31).1 hones)]
    exact append_ofNat_mul_two_pow _ _

/-! ### A value off NaN has one pattern (R3) -/

/-- The magnitude of a zero or finite pattern in the unit of its format's subnormals, 2^(1 − bias − w), by its fields
(R3). -/
def subnormalUnits (T : Format) (e m : Nat) : Nat := if e = 0 then m else (2 ^ T.w + m) * 2 ^ (e - 1)

section Units
variable (T : Format) {e e' m m' : Nat}

theorem subnormalUnits_of_ne_zero (he : e ≠ 0) : subnormalUnits T e m = (2 ^ T.w + m) * 2 ^ (e - 1) := if_neg he

theorem subnormalUnits_lt (hm : m < 2 ^ T.w) : subnormalUnits T e m < 2 ^ (T.w + e) := by
  rcases e with _ | e
  · exact hm
  · calc
      _ = (2 ^ T.w + m) * 2 ^ e := subnormalUnits_of_ne_zero T e.succ_ne_zero
      _ < (2 ^ T.w + 2 ^ T.w) * 2 ^ e := by gcongr
      _ = 2 ^ (T.w + (e + 1)) := by ring

theorem two_pow_le_subnormalUnits_succ : 2 ^ (T.w + e) ≤ subnormalUnits T (e + 1) m := by
  rw [subnormalUnits_of_ne_zero T e.succ_ne_zero, pow_add]
  exact Nat.mul_le_mul_right _ (Nat.le_add_right _ _)

/-- A larger exponent field is a larger magnitude, whatever the mantissa fields. -/
theorem subnormalUnits_lt_of_exp_lt (hm : m < 2 ^ T.w) (hlt : e < e') :
    subnormalUnits T e m < subnormalUnits T e' m' := by
  obtain ⟨k, rfl⟩ := Nat.exists_eq_add_of_lt hlt
  calc
    _ < 2 ^ (T.w + e) := subnormalUnits_lt T hm
    _ ≤ 2 ^ (T.w + (e + k)) := Nat.pow_le_pow_right two_pos (by omega)
    _ ≤ _ := two_pow_le_subnormalUnits_succ T

theorem subnormalUnits_inj (hm : m < 2 ^ T.w) (hm' : m' < 2 ^ T.w)
    (h : subnormalUnits T e m = subnormalUnits T e' m') : e = e' ∧ m = m' := by
  rcases Nat.lt_trichotomy e e' with hlt | rfl | hgt
  · exact absurd h (subnormalUnits_lt_of_exp_lt T hm hlt).ne
  · refine ⟨rfl, ?_⟩
    by_cases he : e = 0
    · simpa [subnormalUnits, he] using h
    · rw [subnormalUnits_of_ne_zero T he, subnormalUnits_of_ne_zero T he] at h
      exact Nat.add_left_cancel (Nat.eq_of_mul_eq_mul_right (Nat.two_pow_pos _) h)
  · exact absurd h (subnormalUnits_lt_of_exp_lt T hm' hgt).ne'

end Units

section Inversion
variable {T : Format} {s b : Bool} {e m x : Nat}

theorem fields_of_valueOf_eq_zero (h : valueOf T s e m = .zero b) : s = b ∧ e = 0 ∧ m = 0 := by
  unfold valueOf at h
  split_ifs at h with he hm
  exact ⟨Value.zero.inj h, he, hm⟩

theorem fields_of_valueOf_eq_infinite (h : valueOf T s e m = .infinite b) : s = b ∧ e = allOnes T ∧ m = 0 := by
  unfold valueOf at h
  split_ifs at h with _ _ hones hm
  exact ⟨Value.infinite.inj h, hones, hm⟩

theorem fields_of_valueOf_eq_finite (h : valueOf T s e m = .finite b x) :
    s = b ∧ subnormalUnits T e m * 2 ^ unitShift T = x := by
  unfold valueOf at h
  split_ifs at h with he hm hones
  · obtain ⟨hs, hx⟩ := Value.finite.inj h
    exact ⟨hs, by rw [he]; exact hx⟩
  · obtain ⟨hs, hx⟩ := Value.finite.inj h
    exact ⟨hs, by rw [subnormalUnits_of_ne_zero T he, mul_assoc, ← pow_add, hx]⟩

/-- Off NaN a value of a format fixes the three fields of its pattern. -/
theorem valueOf_inj {s' : Bool} {e' m' : Nat} (hm : m < 2 ^ T.w) (hm' : m' < 2 ^ T.w)
    (heq : valueOf T s e m = valueOf T s' e' m') (hnan : valueOf T s' e' m' ≠ .nan) :
    s = s' ∧ e = e' ∧ m = m' := by
  cases hv : valueOf T s' e' m' with
  | zero b =>
    obtain ⟨rfl, rfl, rfl⟩ := fields_of_valueOf_eq_zero (heq.trans hv)
    obtain ⟨rfl, rfl, rfl⟩ := fields_of_valueOf_eq_zero hv
    exact ⟨rfl, rfl, rfl⟩
  | finite b x =>
    obtain ⟨rfl, rfl⟩ := fields_of_valueOf_eq_finite (heq.trans hv)
    obtain ⟨rfl, hunits⟩ := fields_of_valueOf_eq_finite hv
    exact ⟨rfl, subnormalUnits_inj T hm hm' (Nat.eq_of_mul_eq_mul_right (Nat.two_pow_pos _) hunits.symm)⟩
  | infinite b =>
    obtain ⟨rfl, rfl, rfl⟩ := fields_of_valueOf_eq_infinite (heq.trans hv)
    obtain ⟨rfl, rfl, rfl⟩ := fields_of_valueOf_eq_infinite hv
    exact ⟨rfl, rfl, rfl⟩
  | nan => exact absurd hv hnan

end Inversion

/-- Off NaN a value has at most one binary64 pattern: its value fixes the three fields (R3). -/
theorem eq_of_val64_eq {d d' : Double} (heq : val64 d = val64 d') (hnan : val64 d' ≠ .nan) : d = d' := by
  obtain ⟨hs, he, hm⟩ := valueOf_inj (T := binary64) (man64_lt d) (man64_lt d') heq hnan
  rw [← pack64_fields d, ← pack64_fields d', hs, he, hm]

/-! ### Exactness (R65) -/

theorem val64_pack64 (s : Bool) (e f : Nat) :
    val64 (pack64 s e f) = valueOf binary64 s (e % 2 ^ 11) (f % 2 ^ 52) := by
  rw [val64, sign64_pack64, exp64_pack64, man64_pack64]

theorem allOnes_binary64 : allOnes binary64 = 2047 := rfl
theorem unitShift_binary16 : unitShift binary16 = 1050 := rfl
theorem unitShift_binary64 : unitShift binary64 = 0 := rfl

/-- "drops the leading 1 of M": put back, the significand is M at the top of 53 bits (R64). -/
theorem leading_one_add_mod {m p : Nat} (hp : p ≤ 52) (hle : 2 ^ p ≤ m) (hlt : m < 2 ^ (p + 1)) :
    2 ^ 52 + m * 2 ^ (52 - p) % 2 ^ 52 = m * 2 ^ (52 - p) := by
  have hlow : 2 ^ 52 ≤ m * 2 ^ (52 - p) := by
    calc
      2 ^ 52 = 2 ^ p * 2 ^ (52 - p) := by rw [← pow_add, Nat.add_sub_cancel' hp]
      _ ≤ _ := Nat.mul_le_mul_right _ hle
  have hhigh : m * 2 ^ (52 - p) < 2 ^ 53 := by
    calc
      _ < 2 ^ (p + 1) * 2 ^ (52 - p) := Nat.mul_lt_mul_of_pos_right hlt (Nat.two_pow_pos _)
      _ = 2 ^ 53 := by rw [← pow_add]; congr 1; omega
  omega

/-- A subnormal of binary16 is the normal of binary64 with the closed form's fields (R64). -/
theorem valueOf_binary64_of_subnormal (s : Bool) {m p : Nat} (hp : p < 10) (hle : 2 ^ p ≤ m)
    (hlt : m < 2 ^ (p + 1)) :
    valueOf binary64 s (p + 999) (m * 2 ^ (52 - p) % 2 ^ 52) = valueOf binary16 s 0 m := by
  have hm : m ≠ 0 := ((Nat.two_pow_pos p).trans_le hle).ne'
  have hones : p + 999 ≠ allOnes binary64 := by
    rw [allOnes_binary64]
    omega
  have hmagnitude : (2 ^ 52 + m * 2 ^ (52 - p) % 2 ^ 52) * 2 ^ (p + 998) = m * 2 ^ 1050 := by
    rw [leading_one_add_mod (by omega) hle hlt, mul_assoc, ← pow_add, show 52 - p + (p + 998) = 1050 by omega]
  rw [valueOf_subnormal _ _ hm, valueOf_normal _ _ (by omega) hones, unitShift_binary16, unitShift_binary64]
  exact congrArg (Value.finite s) hmagnitude

/-- A normal of binary16 is the normal of binary64 with the exponent field re-biased and the mantissa field
left-justified (R61). -/
theorem valueOf_binary64_of_normal (s : Bool) {e : Nat} (he : e ≠ 0) (hlt : e < 31) (m : Nat) :
    valueOf binary64 s (e + 1008) (m * 2 ^ 42) = valueOf binary16 s e m := by
  have hones : e + 1008 ≠ allOnes binary64 := by
    rw [allOnes_binary64]
    omega
  have hmagnitude : (2 ^ 52 + m * 2 ^ 42) * 2 ^ (e + 1007) = (2 ^ 10 + m) * 2 ^ (e - 1 + 1050) := by
    rw [show e - 1 + 1050 = 42 + (e + 1007) by omega, pow_add _ 42, ← mul_assoc, add_mul _ m, ← pow_add]
  rw [valueOf_normal binary16 _ he hlt.ne, valueOf_normal _ _ (by omega) hones, unitShift_binary16,
    unitShift_binary64]
  exact congrArg (Value.finite s) hmagnitude

/-- The decoder is exact (R65): each case of R61 has the value of the pattern it decodes. -/
theorem val64_decodePattern (h : Half) : val64 (decodePattern h) = val16 h := by
  have hman := man16_lt h
  have hexp := exp16_lt h
  unfold val16
  by_cases he : exp16 h = 0
  · by_cases hm : man16 h = 0
    · rw [decodePattern_of_zero he hm, val64_pack64, he, hm]
      exact (valueOf_zero binary64 _).trans (valueOf_zero binary16 _).symm
    · have hp := msb_man16_lt h hm
      obtain ⟨hle, hlt⟩ := (msb_eq_iff hm).1 rfl
      rw [decodePattern_of_subnormal he hle hlt, val64_pack64, he, Nat.mod_eq_of_lt (by omega)]
      exact valueOf_binary64_of_subnormal _ hp hle hlt
  · by_cases hones : exp16 h = 31
    · by_cases hm : man16 h = 0
      · rw [decodePattern_of_infinite hones hm, val64_pack64, hones, hm]
        exact (valueOf_infinite binary64 _ (by decide)).trans (valueOf_infinite binary16 _ (by decide)).symm
      · rw [decodePattern_of_nan ((isNaN16_iff h).2 ⟨hones, hm⟩), hones]
        exact (valueOf_nan binary16 _ (by decide) hm).symm
    · rw [decodePattern_of_normal he hones, val64_pack64, Nat.mod_eq_of_lt (by omega), Nat.mod_eq_of_lt (by omega)]
      exact valueOf_binary64_of_normal _ he (by omega) _

/-- Settles O14: the decoded pattern has the value case by case, and off NaN a value fixes the fields of its pattern. -/
theorem dec16IsExact : Obligations.Dec16IsExact := by
  intro h s
  refine ⟨decodePattern h, (completesWith_dec16_iff h s _).2 rfl, val64_decodePattern h, fun hnan d hd => ?_⟩
  rw [← val64_decodePattern] at hd hnan
  exact eq_of_val64_eq hd hnan

end Sys2Proof.Machine

/-! PROOFS. The encoder (spec/41_encoder.md): the result of ENC16 in each case of R71 to R77, by the bits of the
pattern. -/

namespace Sys2Proof.Machine

/-! ### The fields of a binary64 pattern as bit vectors (R2) -/

section Fields
variable (d : Double)

theorem exp64_eq_toNat_iff (x : BitVec 11) : exp64 d = x.toNat ↔ d.extractLsb' 52 11 = x := BitVec.toNat_inj

theorem man64_eq_toNat_iff (x : BitVec 52) : man64 d = x.toNat ↔ d.extractLsb' 0 52 = x := BitVec.toNat_inj

theorem ofBool_sign64 : BitVec.ofBool (sign64 d) = d.extractLsb' 63 1 := by
  ext k hk
  obtain rfl : k = 0 := by omega
  simp [sign64, BitVec.getElem_ofBool]

/-- `kept10` = `F[51:42]`, as a number (R76). -/
theorem toNat_kept10 : (d.extractLsb' 42 10).toNat = man64 d / 2 ^ 42 := by
  rw [man64_eq, BitVec.extractLsb'_toNat, Nat.shiftRight_eq_div_pow]
  omega

end Fields

/-! ### How ENC16 completes -/

/-- `zext_64`: 48 zeros above the pattern (R49). -/
theorem placeHalf_eq_append (h : Half) : placeHalf h = 0#48 ++ h := BitVec.setWidth_eq_append (by decide)

/-- The magnitude field of infinity is `1^5, 0^10` (R72). -/
theorem append_infinityMagnitude :
    ∀ x : BitVec 1, x ++ BitVec.ofNat 15 infinityMagnitude = x ++ 0b11111#5 ++ 0#10 := by decide

section Completes
variable {d : Double} (s : State) {r : Nat}

/-- `{s, r15}` zero-extended, the form of every result of ENC16 but a NaN's. -/
theorem completesWith_enc16_of_eq_pack16 (h : encodePattern d = pack16 (sign64 d) r) :
    completesWith (.enc16 d) s (0#48 ++ (d.extractLsb' 63 1 ++ BitVec.ofNat 15 r)) := by
  rw [completesWith_enc16_iff, h, placeHalf_eq_append, pack16, ofBool_sign64]

theorem completesWith_enc16_of_eq_infinity (h : encodePattern d = pack16 (sign64 d) infinityMagnitude) :
    completesWith (.enc16 d) s (0#48 ++ (d.extractLsb' 63 1 ++ 0b11111#5 ++ 0#10)) := by
  rw [← append_infinityMagnitude]
  exact completesWith_enc16_of_eq_pack16 s h

end Completes

/-! ### The cases of R79 that are no NaN -/

section Cases
variable {d : Double}

theorem encodePattern_of_infinite (he : exp64 d = 2047) (hm : man64 d = 0) :
    encodePattern d = pack16 (sign64 d) infinityMagnitude := by
  simp [encodePattern, he, hm]

theorem encodePattern_of_exp_zero (he : exp64 d = 0) : encodePattern d = pack16 (sign64 d) 0 := by
  simp [encodePattern, he]

theorem encodePattern_of_overflow (hones : exp64 d ≠ 2047) (hover : 15 < unbiased64 d) :
    encodePattern d = pack16 (sign64 d) infinityMagnitude := by
  have hzero : exp64 d ≠ 0 := by
    unfold unbiased64 at hover
    omega
  simp [encodePattern, hones, hzero, hover]

theorem encodePattern_of_normal (hlow : -14 ≤ unbiased64 d) (hhigh : unbiased64 d ≤ 15) :
    encodePattern d = pack16 (sign64 d) (rne (sig64 d) 42 + (unbiased64 d + 14).toNat * 2 ^ 10) := by
  have hfield : exp64 d ≠ 2047 ∧ exp64 d ≠ 0 := by
    unfold unbiased64 at hlow hhigh
    omega
  simp [encodePattern, hfield, hlow, hhigh.not_gt, Nat.shiftLeft_eq]

theorem encodePattern_of_subnormal (hlow : -25 ≤ unbiased64 d) (hhigh : unbiased64 d < -14) :
    encodePattern d = pack16 (sign64 d) (rne (sig64 d) (28 - unbiased64 d).toNat) := by
  have hfield : exp64 d ≠ 2047 ∧ exp64 d ≠ 0 := by
    unfold unbiased64 at hlow hhigh
    omega
  have hover : ¬ 15 < unbiased64 d := by omega
  simp [encodePattern, hfield, hlow, hhigh.not_ge, hover]

theorem encodePattern_of_underflow (hlow : unbiased64 d < -25) : encodePattern d = pack16 (sign64 d) 0 := by
  have hones : exp64 d ≠ 2047 := by
    unfold unbiased64 at hlow
    omega
  have hover : ¬ 15 < unbiased64 d := by omega
  have hnormal : ¬ -14 ≤ unbiased64 d := by omega
  simp [encodePattern, hones, hover, hnormal, hlow.not_ge]

end Cases

/-! ### Rounding at the places the encoder uses (R75) -/

/-- The conditions of the normal range by the bits of the pattern: round = `F[41]`, sticky = `F[40:0] ≠ 0`, and the
lowest kept bit `F[42]` (R76). -/
theorem roundsUp_sig64_iff (d : Double) :
    roundsUp (sig64 d) 42 = true ↔
      d.getLsbD 41 = true ∧ (d.extractLsb' 0 41 ≠ 0 ∨ d.getLsbD 42 = true) := by
  rw [roundsUp_iff, sig64, man64_eq]
  simp only [BitVec.getLsbD, Nat.testBit_eq_decide_div_mod_eq, decide_eq_true_eq, ne_eq, ← BitVec.toNat_inj,
    BitVec.extractLsb'_toNat, BitVec.ofNat_eq_ofNat, BitVec.toNat_ofNat, Nat.shiftRight_zero]
  omega

/-- The magnitude field of R76 in its other form, `RNE(sig, 42) + ((E16 − 1) << 10)`: the implicit 1 of the significand
is the one that `E16` has more. -/
theorem normalRangeMagnitude_eq {d : Double} (hlow : -14 ≤ unbiased64 d) :
    normalRangeMagnitude d = rne (sig64 d) 42 + (unbiased64 d + 14).toNat * 2 ^ 10 := by
  have hquot : sig64 d / 2 ^ 42 = 2 ^ 10 + man64 d / 2 ^ 42 := by
    unfold sig64
    omega
  rw [normalRangeMagnitude, toNat_kept10]
  rcases rne_cases (sig64 d) 42 with ⟨hup, hrne⟩ | ⟨hup, hrne⟩
  · rw [if_pos ((roundsUp_sig64_iff d).1 hup), hrne, hquot]
    omega
  · rw [if_neg (mt (roundsUp_sig64_iff d).2 (by simp [hup])), hrne, hquot]
    omega

/-- A significand of 2047.5 or more kept units is rounded up to 2048 by its round bit: from 2047.5 exactly because 2047
is odd (R74). -/
theorem rne_eq_two_pow_of_le {sig : Nat} (hlow : 65520 * 2 ^ 37 ≤ sig) (hhigh : sig < 2 ^ 53) :
    rne sig 42 = 2 ^ 11 := by
  have hquot : sig / 2 ^ 42 = 2047 := by omega
  have hup : roundsUp sig 42 = true := (roundsUp_iff sig 42).2 ⟨by omega, .inr (by omega)⟩
  rcases rne_cases sig 42 with ⟨-, hrne⟩ | ⟨hdown, -⟩
  · rw [hrne, hquot]; rfl
  · simp [hup] at hdown

/-- At deficit 11 the kept value is 0 and the round bit is the implicit 1, so `sticky` decides: the mantissa field is
zero or not (R77). -/
theorem rne_sig64_past_width (d : Double) : rne (sig64 d) 53 = if man64 d = 0 then 0 else 1 := by
  have hquot : sig64 d / 2 ^ 53 = 0 := Nat.div_eq_of_lt (sig64_lt d)
  have hman := man64_lt d
  have hup : roundsUp (sig64 d) 53 = true ↔ man64 d ≠ 0 := by
    rw [roundsUp_iff, hquot, sig64]
    omega
  rcases rne_cases (sig64 d) 53 with ⟨h, hrne⟩ | ⟨h, hrne⟩
  · rw [hrne, hquot, if_neg (hup.1 h)]
  · rw [hrne, hquot, if_pos (by simpa [h] using hup)]

/-! ### Magnitudes of finite inputs (R3) -/

/-- A magnitude reaches the powers of two below its exponent field and no other. -/
theorem two_pow_le_subnormalUnits_iff (T : Format) {e m k : Nat} (hm : m < 2 ^ T.w) :
    2 ^ (T.w + k) ≤ subnormalUnits T e m ↔ k < e := by
  constructor
  · intro h
    by_contra hle
    have hpow : 2 ^ (T.w + e) ≤ 2 ^ (T.w + k) := Nat.pow_le_pow_right two_pos (by omega)
    have := subnormalUnits_lt T (e := e) hm
    omega
  · intro hlt
    obtain ⟨j, rfl⟩ := Nat.exists_eq_add_of_lt hlt
    calc
      2 ^ (T.w + k) ≤ 2 ^ (T.w + (k + j)) := Nat.pow_le_pow_right two_pos (by omega)
      _ ≤ _ := two_pow_le_subnormalUnits_succ T

theorem magnitude_val64 {d : Double} (hones : exp64 d ≠ 2047) :
    (val64 d).magnitude = subnormalUnits binary64 (exp64 d) (man64 d) := by
  by_cases he : exp64 d = 0
  · by_cases hm : man64 d = 0
    · rw [val64, he, hm]; rfl
    · rw [val64, he, valueOf_subnormal _ _ hm, unitShift_binary64]
      exact mul_one _
  · rw [val64, valueOf_normal binary64 _ he hones, unitShift_binary64, subnormalUnits_of_ne_zero _ he]
    rfl

/-- The magnitude of a finite input reaches 2^k when its unbiased exponent reaches k, for every exponent k of a normal
(R3). -/
theorem powerOfTwo_le_magnitude_val64_iff {d : Double} (hones : exp64 d ≠ 2047) {k : Int} (hk : -1022 ≤ k) :
    powerOfTwo k ≤ (val64 d).magnitude ↔ k ≤ unbiased64 d := by
  have hexp : (k + 1074).toNat = binary64.w + (k + 1022).toNat := by
    change _ = 52 + _
    omega
  rw [magnitude_val64 hones, powerOfTwo, hexp, two_pow_le_subnormalUnits_iff _ (man64_lt d), unbiased64]
  omega

theorem powerOfTwo_natCast (k : Nat) : powerOfTwo k = 2 ^ k * powerOfTwo 0 := by
  rw [powerOfTwo, powerOfTwo, ← pow_add]
  congr 1

/-- From 65520 up to 2^16 the exponent is 15 (R74). -/
theorem unbiased64_eq_of_magnitude {d : Double} (hones : exp64 d ≠ 2047)
    (hlow : 65520 * powerOfTwo 0 ≤ (val64 d).magnitude) (hhigh : (val64 d).magnitude < powerOfTwo 16) :
    unbiased64 d = 15 := by
  have hpow : powerOfTwo 15 ≤ 65520 * powerOfTwo 0 :=
    (powerOfTwo_natCast 15).trans_le (Nat.mul_le_mul_right _ (by norm_num))
  have h15 := (powerOfTwo_le_magnitude_val64_iff hones (k := 15) (by norm_num)).1 (hpow.trans hlow)
  have h16 := mt (powerOfTwo_le_magnitude_val64_iff hones (k := 16) (by norm_num)).2 hhigh.not_ge
  omega

/-- At the exponent 15 a magnitude of 65520 or more is a significand of 2047.5 kept units or more. -/
theorem le_sig64_of_magnitude {d : Double} (he : unbiased64 d = 15)
    (hlow : 65520 * powerOfTwo 0 ≤ (val64 d).magnitude) : 65520 * 2 ^ 37 ≤ sig64 d := by
  have hexp : exp64 d = 1038 := by
    unfold unbiased64 at he
    omega
  have hpow : powerOfTwo 0 = 2 ^ 37 * 2 ^ (exp64 d - 1) := by
    rw [powerOfTwo, hexp, ← pow_add]
    congr 1
  rw [magnitude_val64 (by omega), subnormalUnits_of_ne_zero _ (by omega), hpow, ← mul_assoc] at hlow
  exact Nat.le_of_mul_le_mul_right hlow (Nat.two_pow_pos _)

/-! ### The statements -/

/-- Settles O18: the NaN case of the encoder, and what it shows as a NaN by `oneNaN`. -/
theorem enc16CanonicalNaN : Obligations.Enc16CanonicalNaN := by
  refine ⟨fun d s he hm => ?_, ?_⟩
  · have hn : isNaN64 d = true :=
      (isNaN64_iff d).2 ⟨(exp64_eq_toNat_iff d 0x7FF).2 he, mt (man64_eq_toNat_iff d 0).1 hm⟩
    rw [completesWith_enc16_iff, encodePattern_of_nan hn]
    decide
  · obtain ⟨-, -, -, hout⟩ := oneNaN
    exact hout

/-- Settles O19: the encoder keeps the sign above the magnitude field of infinity or zero, which the two fields of the
input select. -/
theorem enc16InfinitiesAndZeros : Obligations.Enc16InfinitiesAndZeros := by
  intro d s
  refine ⟨fun he hm => ?infinity, fun he hm => ?zero⟩
  case infinity =>
    exact completesWith_enc16_of_eq_infinity s
      (encodePattern_of_infinite ((exp64_eq_toNat_iff d 0x7FF).2 he) ((man64_eq_toNat_iff d 0).2 hm))
  case zero =>
    exact completesWith_enc16_of_eq_pack16 s (encodePattern_of_exp_zero ((exp64_eq_toNat_iff d 0).2 he))

/-- Settles O21: the exponent tells the magnitudes from 2^16 up; below, from 65520, the carry out of the significand
2047.5 and more makes the magnitude field 2048 + 29 × 1024, infinity's. -/
theorem enc16OverflowSaturates : Obligations.Enc16OverflowSaturates := by
  intro d s hfield
  have hones : exp64 d ≠ 2047 := mt (exp64_eq_toNat_iff d 0x7FF).1 hfield
  refine ⟨?magnitudes, fun hover => ?overflow, fun hlow hhigh => ?carry⟩
  case magnitudes => exact (powerOfTwo_le_magnitude_val64_iff hones (by norm_num)).symm
  case overflow => exact completesWith_enc16_of_eq_infinity s (encodePattern_of_overflow hones hover)
  case carry =>
    have he := unbiased64_eq_of_magnitude hones hlow hhigh
    refine ⟨he, completesWith_enc16_of_eq_infinity s ?_⟩
    rw [encodePattern_of_normal (by omega) he.le, rne_eq_two_pow_of_le (le_sig64_of_magnitude he hlow) (sig64_lt d), he]
    rfl

/-- Settles O22: the sum of R76 is `RNE(sig, 42) + ((E16 − 1) << 10)`, with the rounded significand at most 2^11. -/
theorem enc16NormalRange : Obligations.Enc16NormalRange := by
  intro d s hlow hhigh
  rw [normalRangeMagnitude_eq hlow]
  refine ⟨?_, completesWith_enc16_of_eq_pack16 s (encodePattern_of_normal hlow hhigh)⟩
  have hrne : rne (sig64 d) 42 ≤ 2 ^ 11 := rne_le_two_pow (sig64_lt d)
  omega

/-- Settles O23: deficit 12 or more is the encoder's last case; up to 11 the shift is 42 + deficit, and at 11 the
mantissa field decides. -/
theorem enc16SubnormalRange : Obligations.Enc16SubnormalRange := by
  intro d s deficit _ he hpos
  have hround (hle : deficit ≤ 11) : encodePattern d = pack16 (sign64 d) (rne (sig64 d) (42 + deficit)) := by
    rw [encodePattern_of_subnormal (by omega) (by omega), he]
    congr 2
    omega
  have hlast (h11 : deficit = 11) :
      encodePattern d = pack16 (sign64 d) (if man64 d = 0 then 0 else 1) := by
    rw [hround h11.le, h11, rne_sig64_past_width]
  refine ⟨fun hgt => ?underflow, fun hle => ⟨?bound, ?rounded⟩, fun h11 hm => ?tie, fun h11 hm => ?aboveTie⟩
  case underflow => exact completesWith_enc16_of_eq_pack16 s (encodePattern_of_underflow (by omega))
  case bound =>
    exact rne_le_two_pow (k := 10) ((sig64_lt d).trans_le (Nat.pow_le_pow_right two_pos (by omega)))
  case rounded => exact completesWith_enc16_of_eq_pack16 s (hround hle)
  case tie =>
    have hF : man64 d = 0 := (man64_eq_toNat_iff d 0).2 hm
    exact completesWith_enc16_of_eq_pack16 s ((hlast h11).trans (by rw [if_pos hF]))
  case aboveTie =>
    have hF : man64 d ≠ 0 := mt (man64_eq_toNat_iff d 0).1 hm
    exact completesWith_enc16_of_eq_pack16 s ((hlast h11).trans (by rw [if_neg hF]))

end Sys2Proof.Machine

/-! PROOFS. The classifier (spec/42_classifier.md): what it reads of a pattern (R85), the significant-bit count (R87),
and the label in each step of R86, R88, R90 and R91. -/

namespace Sys2Proof.Machine

/-! ### The fields the classifier reads (R85) -/

/-- Flipping bit 63 leaves every field that bit is no part of as it was. -/
theorem extractLsb'_xor_signBit (d : Double) {start len : Nat}
    (hmask : (0x8000000000000000 : Double).extractLsb' start len = 0) :
    (d ^^^ 0x8000000000000000).extractLsb' start len = d.extractLsb' start len := by
  rw [BitVec.extractLsb'_xor, hmask]
  exact BitVec.xor_zero

@[simp] theorem exp64_xor_signBit (d : Double) : exp64 (d ^^^ 0x8000000000000000) = exp64 d :=
  congrArg BitVec.toNat (extractLsb'_xor_signBit d (by decide))

@[simp] theorem man64_xor_signBit (d : Double) : man64 (d ^^^ 0x8000000000000000) = man64 d :=
  congrArg BitVec.toNat (extractLsb'_xor_signBit d (by decide))

/-- The label depends on the exponent and mantissa fields alone. -/
theorem classify_congr (T : Format) {d d' : Double} (he : exp64 d = exp64 d') (hm : man64 d = man64 d') :
    classify T d = classify T d' := by
  rw [classify, classify, unbiased64, unbiased64, he, hm]

/-! ### The steps of R92 -/

theorem exp64_ne_zero_of_lt {d : Double} (h : -1023 < unbiased64 d) : exp64 d ≠ 0 := by
  unfold unbiased64 at h
  omega

/-- What the two targets have in common: their ranges stand in order, above the exponent −1023 of zeros and
subnormals. -/
theorem target_bounds : ∀ T ∈ [binary16, binary32], -1023 < emin T - T.w ∧ emin T ≤ emax T := by decide

theorem classify_of_exp_ones (T : Format) {d : Double} (hones : exp64 d = 2047) : classify T d = .exact :=
  if_pos hones

theorem classify_of_zero (T : Format) {d : Double} (he : exp64 d = 0) (hm : man64 d = 0) :
    classify T d = .exact := by
  simp [classify, he, hm]

section Steps
variable {T : Format} {d : Double} (hT : T ∈ [binary16, binary32]) (hones : exp64 d ≠ 2047)
include hT hones

theorem classify_of_overflow (hover : emax T < unbiased64 d) : classify T d = .overflow := by
  obtain ⟨hbottom, hrange⟩ := target_bounds T hT
  have hzero : exp64 d ≠ 0 := exp64_ne_zero_of_lt (by omega)
  simp [classify, hones, hzero, hover]

theorem classify_of_subnormal_range (hlow : emin T - T.w ≤ unbiased64 d) (hhigh : unbiased64 d < emin T) :
    classify T d =
      if emin T - unbiased64 d + significantBits (man64 d) ≤ T.w then .exact else .inexact := by
  obtain ⟨hbottom, hrange⟩ := target_bounds T hT
  have hzero : exp64 d ≠ 0 := exp64_ne_zero_of_lt (by omega)
  have hover : ¬ emax T < unbiased64 d := by omega
  simp [classify, hones, hzero, hover, hlow.not_gt, hhigh]

theorem classify_of_normal_range (hlow : emin T ≤ unbiased64 d) (hhigh : unbiased64 d ≤ emax T) :
    classify T d = if significantBits (man64 d) ≤ T.w then .exact else .inexact := by
  obtain ⟨hbottom, -⟩ := target_bounds T hT
  have hzero : exp64 d ≠ 0 := exp64_ne_zero_of_lt (by omega)
  have hunder : ¬ unbiased64 d < emin T - T.w := by omega
  simp [classify, hones, hzero, hhigh.not_gt, hunder, hlow.not_gt]

end Steps

/-- The codes of `exact` and `inexact` on the port (R6, R49). -/
theorem placeLabel_ite (p : Prop) [Decidable p] :
    placeLabel (if p then .exact else .inexact) = if p then 0 else 1 := by
  split_ifs <;> rfl

/-! ### The statements -/

/-- Settles O43: the count of `ctz` stops at the lowest set bit. -/
theorem significantBitCount : Obligations.SignificantBitCount := by
  refine ⟨rfl, fun f hpos hlt => ?_⟩
  obtain ⟨hdvd, hodd, hctz⟩ := ctzUpTo_spec hpos.ne' hlt
  refine ⟨ctzUpTo 52 f, by omega, hdvd, ?_, if_neg hpos.ne'⟩
  rw [pow_succ, ← Nat.dvd_div_iff_mul_dvd hdvd]
  omega

/-- Settles O47: the label is a function of the two fields that the sign bit is no part of. -/
theorem clsIgnoresTheSign : Obligations.ClsIgnoresTheSign := by
  intro d
  have hflip (T : Format) : classify T (d ^^^ 0x8000000000000000) = classify T d :=
    classify_congr T (exp64_xor_signBit d) (man64_xor_signBit d)
  refine ⟨classify binary16 d, classify binary32 d, fun s => ?_⟩
  simp only [completesWith_cls16_iff, completesWith_cls32_iff, hflip]
  exact ⟨rfl, rfl, rfl, rfl⟩

/-- Settles O42: both fields of a special input settle the label before the target is looked at. -/
theorem clsSpecialInputsAreExact : Obligations.ClsSpecialInputsAreExact := by
  intro d s hspecial
  have hexact (T : Format) : classify T d = .exact := by
    rcases hspecial with hones | ⟨he, hm⟩
    · exact classify_of_exp_ones T ((exp64_eq_toNat_iff d 0x7FF).2 hones)
    · exact classify_of_zero T ((exp64_eq_toNat_iff d 0).2 he) ((man64_eq_toNat_iff d 0).2 hm)
  rw [completesWith_cls16_iff, completesWith_cls32_iff, hexact, hexact]
  exact ⟨rfl, rfl⟩

/-- Settles O44: each clause is a step of R92 with the target's numbers: emax 15, emin −14, w 10 and emax 127,
emin −126, w 23. -/
theorem clsStepsByExponent : Obligations.ClsStepsByExponent := by
  intro d s hfield
  have hones : exp64 d ≠ 2047 := mt (exp64_eq_toNat_iff d 0x7FF).1 hfield
  have h16 : binary16 ∈ [binary16, binary32] := by simp
  have h32 : binary32 ∈ [binary16, binary32] := by simp
  simp only [completesWith_cls16_iff, completesWith_cls32_iff]
  refine ⟨fun hover => ?over16, fun hlow hhigh => ?sub16, fun hlow hhigh => ?normal16,
    fun hover => ?over32, fun hlow hhigh => ?sub32, fun hlow hhigh => ?normal32⟩
  case over16 => rw [classify_of_overflow h16 hones hover]; rfl
  case sub16 => rw [classify_of_subnormal_range h16 hones hlow hhigh]; exact placeLabel_ite _
  case normal16 => rw [classify_of_normal_range h16 hones hlow hhigh]; exact placeLabel_ite _
  case over32 => rw [classify_of_overflow h32 hones hover]; rfl
  case sub32 => rw [classify_of_subnormal_range h32 hones hlow hhigh]; exact placeLabel_ite _
  case normal32 => rw [classify_of_normal_range h32 hones hlow hhigh]; exact placeLabel_ite _

end Sys2Proof.Machine

/-! PROOFS. Exceptions (spec/60_exceptions.md): the value forms raise nothing (R100). -/

namespace Sys2Proof.Machine

/-- Settles O38: the `y` of a value form is the model's function of its operand, so it is chosen before the state. -/
theorem valueFormsAlwaysComplete : Obligations.ValueFormsAlwaysComplete := by
  refine ⟨fun h => ⟨decodePattern h, fun s => ?dec16⟩, fun d => ⟨placeHalf (encodePattern d), fun s => ?enc16⟩,
    fun d => ⟨placeLabel (classify binary16 d), fun s => ?cls16⟩,
    fun d => ⟨placeLabel (classify binary32 d), fun s => ?cls32⟩⟩
  case dec16 => exact (completesWith_dec16_iff h s _).2 rfl
  case enc16 => exact (completesWith_enc16_iff d s _).2 rfl
  case cls16 => exact (completesWith_cls16_iff d s _).2 rfl
  case cls32 => exact (completesWith_cls32_iff d s _).2 rfl

end Sys2Proof.Machine

/-! PROOFS. The other direction of the encoding (spec/30_encoding.md R46 to R48): what a decoded operation says of the
request, and the listing's command words (R53). -/

namespace Sys2Proof

/-! ### Requests and the operations they decode to -/

/-- A command word is its `le` bit above its `op` (R46). -/
theorem bit_orderField_append_opField : ∀ cmd : BitVec 4, (orderField cmd).bit ++ opField cmd = cmd := by
  decide

theorem opField_encode (i : Instr) : opField (encode i).cmd = opcode i := Laws.opField_append _ _

/-- A request decodes to the operation of its own row (R47). -/
theorem opField_of_decode_eq_ok {r : Request} {i : Instr} (h : decode r = .ok i) : opField r.cmd = opcode i := by
  by_cases hres : opField r.cmd = 6 ∨ opField r.cmd = 7
  · rw [decode_of_op_reserved rfl hres] at h
    cases h
  · rcases op_cases_of_not_reserved _ (not_or.1 hres) with hop | hop | hop | hop | hop | hop
    · rw [decode_of_op_dec16 hop] at h
      cases h; exact hop
    · rw [decode_of_op_enc16 hop] at h
      cases h; exact hop
    · rw [decode_of_op_cls16 hop] at h
      cases h; exact hop
    · rw [decode_of_op_cls32 hop] at h
      cases h; exact hop
    · rw [decode_of_op_lddec16 hop rfl] at h
      cases h; exact hop
    · rw [decode_of_op_encst16 hop rfl] at h
      cases h; exact hop

/-- The offset of the buffer access an operation makes, none for a value form (R32). -/
def Instr.accessOffset : Instr → Option Nat
  | .dec16 _ => none
  | .enc16 _ => none
  | .cls16 _ => none
  | .cls32 _ => none
  | .lddec16 _ off => some off
  | .encst16 _ off _ => some off

/-- A decoded access is at the request's own offset (R48, R51). -/
theorem accessOffset_of_decode_eq_ok {r : Request} {i : Instr} {off : Nat} (h : decode r = .ok i)
    (hoff : i.accessOffset = some off) : off = r.off := by
  have hop := opField_of_decode_eq_ok h
  cases i with
  | dec16 x | enc16 x | cls16 x | cls32 x => cases hoff
  | lddec16 le k =>
    rw [decode_of_op_lddec16 hop rfl] at h
    cases h; cases hoff; rfl
  | encst16 le k d =>
    rw [decode_of_op_encst16 hop rfl] at h
    cases h; cases hoff; rfl

/-- A request that is not well formed has a reserved `op` and is rejected by that name (R50). -/
theorem decode_eq_error_of_not_wellFormed {r : Request} (h : r.wellFormed = false) :
    decode r = .error (.reservedOp (opField r.cmd)) := by
  refine decode_of_op_reserved rfl ?_
  simp only [Request.wellFormed, Bool.and_eq_false_iff, bne_eq_false_iff_eq] at h
  exact h

end Sys2Proof

namespace Sys2Proof.Machine

/-- Settles O3: the `op` of the encoding selects the operation's own row, and each input the row reads is the operand
put there. -/
theorem decodeOfEncodeIsIdentity : Obligations.DecodeOfEncodeIsIdentity := by
  intro i
  have hop := opField_encode i
  cases i with
  | dec16 h =>
    rw [decode_of_op_dec16 hop]
    exact congrArg (fun x => Except.ok (Instr.dec16 x)) (extractLsb'_placeHalf h)
  | enc16 d => exact decode_of_op_enc16 hop
  | cls16 d => exact decode_of_op_cls16 hop
  | cls32 d => exact decode_of_op_cls32 hop
  | lddec16 le off => exact decode_of_op_lddec16 hop (orderField_append le 4)
  | encst16 le off d => exact decode_of_op_encst16 hop (orderField_append le 5)

/-- Settles O4: the decoded operation fixes `op`, hence its row, and the row says which inputs it took; where the byte
order is one of them the whole command word is `le` above `op`. -/
theorem encodeOfDecodeKeepsWhatIsRead : Obligations.EncodeOfDecodeKeepsWhatIsRead := by
  intro r i h
  have hop := opField_of_decode_eq_ok h
  have hcmd := bit_orderField_append_opField r.cmd
  refine ⟨(opField_encode i).trans hop.symm, ?_⟩
  cases i with
  | dec16 x =>
    rw [decode_of_op_dec16 hop] at h
    cases h; exact extractLsb'_placeHalf _
  | enc16 d =>
    rw [decode_of_op_enc16 hop] at h
    cases h; rfl
  | cls16 d =>
    rw [decode_of_op_cls16 hop] at h
    cases h; rfl
  | cls32 d =>
    rw [decode_of_op_cls32 hop] at h
    cases h; rfl
  | lddec16 le off =>
    rw [decode_of_op_lddec16 hop rfl] at h
    cases h
    rw [hop] at hcmd
    exact ⟨hcmd, rfl⟩
  | encst16 le off d =>
    rw [decode_of_op_encst16 hop rfl] at h
    cases h
    rw [hop] at hcmd
    exact congrArg (Request.mk · r.a r.off) hcmd

end Sys2Proof.Machine

namespace Sys2Proof

/-- A legal line stands for its suffix's `le` above its name's `op`, and 0 on an input it does not have (R53). -/
theorem request_of_wellFormed {name : LineName} {order : Option ByteOrder} {off a : Option Nat} {cmd : BitVec 4}
    (hwf : Line.wellFormed ⟨name, order, off, a⟩ = true) (hcmd : suffixBit order ++ name.op = cmd) :
    Line.request ⟨name, order, off, a⟩ = some ⟨cmd, BitVec.ofNat 64 (a.getD 0), off.getD 0⟩ := by
  rw [Line.request, if_pos hwf, hcmd]

theorem fitsDataPort_some {a : Nat} (h : a < 2 ^ 64) : fitsDataPort (some a) = true := decide_eq_true h

/-- Settles O10: each of the eight lines has the parts its form asks for, so it is legal, and its command word is read
off its suffix and name. -/
theorem listingLinesStandForTheirRequests : Obligations.ListingLinesStandForTheirRequests := by
  intro a off ha
  have hfits := fitsDataPort_some ha
  refine ⟨?_, ?_, ?_, ?_, ?_, ?_, ?_, ?_⟩
  case refine_5 | refine_6 => exact request_of_wellFormed rfl (by decide)
  all_goals exact request_of_wellFormed hfits (by decide)

end Sys2Proof

/-! PROOFS. The machine: what an operation, a step and a run can do (spec/10_state.md, spec/20_memory.md,
spec/60_exceptions.md, spec/70_reset_and_hazards.md), and what they keep. -/

namespace Sys2Proof.Machine

/-! ### What an operation can do -/

/-- Every operation answers, in one of three ways: with a result and no other change, with a result and an admitted
store, or with the report of an access that is not admitted (R100, R101, R121). -/
theorem exec_cases (i : Instr) (s : State) :
    (∃ y, exec i s = .next (s.respond (.result y))) ∨
    (∃ le off d, i = .encst16 le off d ∧ off + 2 ≤ s.bufLen ∧
      exec i s =
        .next ((s.store le off (encodePattern d)).respond (.result (placeHalf (encodePattern d))))) ∨
    (∃ off, i.accessOffset = some off ∧ off + 2 > s.bufLen ∧
      exec i s = .next (s.respond (.raised (.bufferRange off)))) := by
  cases i with
  | dec16 h => exact .inl ⟨_, exec_dec16 h s⟩
  | enc16 d => exact .inl ⟨_, exec_enc16 d s⟩
  | cls16 d => exact .inl ⟨_, exec_cls16 d s⟩
  | cls32 d => exact .inl ⟨_, exec_cls32 d s⟩
  | lddec16 le off =>
    rcases exec_lddec16_cases le off s with ⟨-, hexec⟩ | ⟨hout, hexec⟩
    · exact .inl ⟨_, hexec⟩
    · exact .inr (.inr ⟨off, rfl, hout, hexec⟩)
  | encst16 le off d =>
    rcases exec_encst16_cases le off d s with ⟨hin, hexec⟩ | ⟨hout, hexec⟩
    · exact .inr (.inl ⟨le, off, d, rfl, hin, hexec⟩)
    · exact .inr (.inr ⟨off, rfl, hout, hexec⟩)

section Access
variable {s t : State} {i : Instr} {off : Nat}

/-- An access that is not admitted is reported, whichever of the two it is (R37, R101). -/
theorem raisesRange_of_accessOffset (hoff : i.accessOffset = some off) (hout : off + 2 > s.bufLen) :
    raisesRange i s off := by
  cases i with
  | dec16 x | enc16 x | cls16 x | cls32 x => cases hoff
  | lddec16 le k =>
    cases hoff
    exact ((exec_lddec16_cases le off s).resolve_left fun h => hout.not_ge h.1).2
  | encst16 le k d =>
    cases hoff
    exact ((exec_encst16_cases le off d s).resolve_left fun h => hout.not_ge h.1).2

/-- The other direction of `raisesRange_of_accessOffset`, from the newest answer: a report comes from an access of the
operation that was not admitted, and it is all that changed (R101, R106). -/
theorem of_exec_answers_raised (hexec : exec i s = .next t)
    (hresp : t.responses = .raised (.bufferRange off) :: s.responses) :
    i.accessOffset = some off ∧ off + 2 > s.bufLen ∧ t = s.respond (.raised (.bufferRange off)) := by
  rcases exec_cases i s with ⟨y, h⟩ | ⟨le, k, d, -, -, h⟩ | ⟨k, hk, hout, h⟩
  all_goals
    obtain rfl := Host.Outcome.next.inj (h.symm.trans hexec)
    obtain ⟨hnew, -⟩ := List.cons.inj hresp
  case inl | inr.inl => cases hnew
  case inr.inr =>
    cases hnew
    exact ⟨hk, hout, rfl⟩

/-- Every operation leaves the length and the requests to come as they were and adds one answer (R29, R122). -/
theorem exec_frame (hexec : exec i s = .next t) :
    t.bufLen = s.bufLen ∧ t.requests = s.requests ∧ ∃ r, t.responses = r :: s.responses := by
  rcases exec_cases i s with ⟨y, h⟩ | ⟨le, k, d, -, -, h⟩ | ⟨k, -, -, h⟩
  all_goals
    obtain rfl := Host.Outcome.next.inj (h.symm.trans hexec)
    exact ⟨rfl, rfl, _, rfl⟩

/-- Only an ENCST16 whose access is admitted changes the buffer (R24, R31, R37). -/
theorem buf_of_exec (hexec : exec i s = .next t)
    (hno : ∀ le off d, i = .encst16 le off d → off + 2 > s.bufLen) : t.buf = s.buf := by
  rcases exec_cases i s with ⟨y, h⟩ | ⟨le, k, d, hi, hin, h⟩ | ⟨k, -, -, h⟩
  · obtain rfl := Host.Outcome.next.inj (h.symm.trans hexec)
    rfl
  · exact absurd (hno le k d hi) hin.not_gt
  · obtain rfl := Host.Outcome.next.inj (h.symm.trans hexec)
    rfl

/-- A byte that the operation does not store to stays as it was (R36). -/
theorem readByte_of_exec (hexec : exec i s = .next t) {k : Nat}
    (hk : ∀ le off d, i = .encst16 le off d → ¬ touches off k) :
    Memory.readByte t.buf k = Memory.readByte s.buf k := by
  by_cases hstore : ∃ le off d, i = .encst16 le off d
  · obtain ⟨le, off, d, rfl⟩ := hstore
    exact readByte_of_exec_encst16 hexec (hk le off d rfl)
  · rw [buf_of_exec hexec fun le off d hi => absurd ⟨le, off, d, hi⟩ hstore]

end Access

/-- Settles O39: the frame that all six share, and the buffer by whether the operation is a store. -/
theorem frameOfEveryOperation : Obligations.FrameOfEveryOperation := by
  intro i s t hexec
  obtain ⟨hlen, hreq, hresp⟩ := exec_frame hexec
  refine ⟨hlen, hreq, hresp, ?_⟩
  cases i with
  | dec16 x | enc16 x | cls16 x | cls32 x => exact buf_of_exec hexec (by simp)
  | lddec16 le off => exact buf_of_exec hexec (by simp)
  | encst16 le off d =>
    refine ⟨fun hout => buf_of_exec hexec ?_, fun k hk => readByte_of_exec_encst16 hexec hk⟩
    rintro _ _ _ ⟨⟩
    exact hout

/-! ### Accesses -/

section Held
variable (s : State) (off : Nat)

/-- The two bytes of a stored pattern, put together in the order they were stored in, are the pattern (R33). -/
theorem heldPattern_store (le : ByteOrder) (h : Half) : heldPattern le (s.store le off h).buf off = h := by
  have hfirst := readByte_store_of_touches s le off h (.inl rfl)
  have hsecond := readByte_store_of_touches s le off h (.inr rfl)
  have hjoin : h.extractLsb' 8 8 ++ h.extractLsb' 0 8 = h := by
    apply BitVec.eq_of_toNat_eq
    have := h.isLt
    simp only [toNat_append_bytes, BitVec.extractLsb'_toNat, Nat.shiftRight_eq_div_pow]
    omega
  cases le
  · rw [heldPattern, hfirst, hsecond, storedByte_big_first, storedByte_big_second, hjoin]
  · rw [heldPattern, hfirst, hsecond, storedByte_little_first, storedByte_little_second, hjoin]

/-- Reading in the other order exchanges the two bytes (R34). -/
theorem heldPattern_other_order (le : ByteOrder) (m : Memory) :
    heldPattern (if le = .little then .big else .little) m off = swapBytes (heldPattern le m off) := by
  cases le <;> exact (swapBytes_append _ _).symm

end Held

/-- Settles O31: the pattern that an admitted load decodes is the two bytes in the order of `le`. -/
theorem lddec16ReadsInByteOrder : Obligations.Lddec16ReadsInByteOrder := by
  intro s off hin
  simp only [completesWith_dec16_iff, completesWith_lddec16_iff]
  exact ⟨fun y hy => ⟨hin, hy⟩, fun y hy => ⟨hin, hy⟩, _, _, ⟨hin, rfl⟩, hin, rfl⟩

/-- Settles O32: both accesses at an offset are reported there, and the ports show the report. -/
theorem outOfRangeIsReported : Obligations.OutOfRangeIsReported := by
  intro s le off d hout
  have hload : raisesRange (.lddec16 le off) s off := raisesRange_of_accessOffset rfl hout
  have hstore : raisesRange (.encst16 le off d) s off := raisesRange_of_accessOffset rfl hout
  refine ⟨hload, hstore, fun t ht => ?_, rfl, rfl⟩
  rcases ht with ht | ht
  · obtain rfl := Host.Outcome.next.inj (hload.symm.trans ht)
    exact ⟨rfl, rfl⟩
  · obtain rfl := Host.Outcome.next.inj (hstore.symm.trans ht)
    exact ⟨rfl, rfl⟩

/-- Settles O33: a report is all that the operation changed, so the same access is as little admitted in the state
after it. -/
theorem sameRequestFailsTheSameWay : Obligations.SameRequestFailsTheSameWay := by
  intro i s t off hexec hresp
  obtain ⟨hoff, hout, rfl⟩ := of_exec_answers_raised hexec hresp
  exact ⟨rfl, hout, raisesRange_of_accessOffset hoff hout⟩

/-- Settles O34: what the load decodes is the pattern the store left, or its exchange. -/
theorem storeThenLoad : Obligations.StoreThenLoad := by
  intro s le off d hin
  have hheld := heldPattern_store s off le (encodePattern d)
  refine ⟨_, encodePattern d, _, _, (completesWith_enc16_iff d s _).2 rfl, exec_encst16_of_le d hin,
    (completesWith_dec16_iff _ _ _).2 rfl, (completesWith_lddec16_iff _).2 ⟨hin, ?same⟩,
    (completesWith_dec16_iff _ _ _).2 rfl, (completesWith_lddec16_iff _).2 ⟨hin, ?other⟩⟩
  case same => exact congrArg decodePattern hheld
  case other =>
    rw [heldPattern_other_order]
    exact congrArg (decodePattern ∘ swapBytes) hheld

/-- Settles O60: an offset that looks up as nothing reads as the free byte there, so the load's pattern is the two free
bytes. -/
theorem unwrittenBytesAreRead : Obligations.UnwrittenBytesAreRead := by
  intro s off hin hfirst hsecond
  refine ⟨_, (completesWith_dec16_iff _ _ _).2 rfl, (completesWith_lddec16_iff _).2 ⟨hin, ?_⟩⟩
  rw [heldPattern, Memory.readByte, Memory.readByte, hfirst, hsecond]
  rfl

/-! ### Repeated accesses (R38) -/

/-- A byte just written is written again without effect. -/
theorem writeByte_writeByte_self (m : Memory) (k : Nat) (b : Byte) :
    Memory.writeByte (Memory.writeByte m k b) k b = Memory.writeByte m k b := by
  induction m with
  | nil => simp [Memory.writeByte]
  | cons c m ih =>
    by_cases hlt : c.1 < k
    · simp [Memory.writeByte, hlt, ih]
    · by_cases heq : c.1 = k <;> simp [Memory.writeByte, hlt, heq]

/-- The same with a byte at a higher offset written in between. -/
theorem writeByte_writeByte_writeByte (m : Memory) {k j : Nat} (hkj : k < j) (a b : Byte) :
    Memory.writeByte (Memory.writeByte (Memory.writeByte m k a) j b) k a =
      Memory.writeByte (Memory.writeByte m k a) j b := by
  induction m with
  | nil => simp [Memory.writeByte, hkj]
  | cons c m ih =>
    by_cases hlt : c.1 < k
    · simp [Memory.writeByte, hlt, hlt.trans hkj, ih]
    · by_cases heq : c.1 = k <;> simp [Memory.writeByte, hlt, heq, hkj]

/-- A store repeated leaves the buffer as the first one left it. -/
theorem buf_store_store (s : State) (le : ByteOrder) (off : Nat) (h : Half) :
    ((s.store le off h).store le off h).buf = (s.store le off h).buf := by
  simp only [State.store, Memory.writeBytes, writeByte_writeByte_writeByte _ off.lt_succ_self,
    writeByte_writeByte_self]

/-- Settles O36: a load leaves the buffer, so it reads the same pattern, or fails, again; a store finds its own two
bytes in place. -/
theorem bufferAccessesAreIdempotent : Obligations.BufferAccessesAreIdempotent := by
  refine ⟨fun s le off => ?load, fun s le off d => ?store⟩
  case load =>
    rcases Nat.lt_or_ge s.bufLen (off + 2) with hout | hin
    · exact ⟨_, _, _, raisesRange_of_accessOffset rfl hout, raisesRange_of_accessOffset rfl hout, rfl, rfl, rfl, rfl⟩
    · exact ⟨_, _, _, exec_lddec16_of_le hin, exec_lddec16_of_le hin, rfl, rfl, rfl, rfl⟩
  case store =>
    rcases Nat.lt_or_ge s.bufLen (off + 2) with hout | hin
    · exact ⟨_, _, raisesRange_of_accessOffset rfl hout, raisesRange_of_accessOffset rfl hout, rfl⟩
    · exact ⟨_, _, exec_encst16_of_le d hin, exec_encst16_of_le d hin, buf_store_store s le off _⟩

/-! ### What a step can do -/

section Step
variable {s t : State} {r : Request} {rest : List Request} {i : Instr}

theorem step_of_no_requests (hreq : s.requests = []) : step s = .next s := by
  simp only [step, hreq]

theorem step_of_decode_ok (hreq : s.requests = r :: rest) (hdec : decode r = .ok i) :
    step s = exec i { s with requests := rest } := by
  simp only [step, hreq, hdec]

/-- A step that answers a next state is idle or runs the operation of the next request (R118, R121). -/
theorem step_eq_next_cases (hstep : step s = .next t) :
    (s.requests = [] ∧ t = s) ∨
    ∃ r rest i, s.requests = r :: rest ∧ decode r = .ok i ∧ exec i { s with requests := rest } = .next t := by
  cases hreq : s.requests with
  | nil =>
    rw [step_of_no_requests hreq] at hstep
    exact .inl ⟨rfl, (Host.Outcome.next.inj hstep).symm⟩
  | cons r rest =>
    cases hdec : decode r with
    | error e =>
      cases e with
      | reservedOp op =>
        rw [step_of_decode_error hreq hdec] at hstep
        cases hstep
    | ok i =>
      rw [step_of_decode_ok hreq hdec] at hstep
      exact .inr ⟨r, rest, i, rfl, hdec, hstep⟩

/-- A well-formed request is answered, with one answer more, itself taken and the length kept. -/
theorem step_answers (hreq : s.requests = r :: rest) (hwf : r.wellFormed = true) :
    ∃ t a, step s = .next t ∧ t.requests = rest ∧ t.responses = a :: s.responses ∧ t.bufLen = s.bufLen := by
  obtain ⟨i, hdec⟩ := exists_decode_eq_ok_of_wellFormed hwf
  rw [step_of_decode_ok hreq hdec]
  rcases exec_cases i { s with requests := rest } with ⟨y, h⟩ | ⟨le, off, d, -, -, h⟩ | ⟨off, -, -, h⟩
  all_goals exact ⟨_, _, h, rfl, rfl, rfl⟩

end Step

/-- Settles O7: `step` finds the request and its operation, and runs it. -/
theorem stepRunsTheDecodedOperation : Obligations.StepRunsTheDecodedOperation :=
  fun _ _ _ _ hreq hdec => step_of_decode_ok hreq hdec

/-- Settles O8: the idle step. -/
theorem noRequestNothingChanges : Obligations.NoRequestNothingChanges := fun _ hreq => step_of_no_requests hreq

/-- Settles O56: a request that is not reserved decodes, and its operation answers in one of the ways of `exec_cases`,
a report naming the request's own offset; a reserved one is refused. -/
theorem everyRequestEndsOneOfThreeWays : Obligations.EveryRequestEndsOneOfThreeWays := by
  intro s r rest hreq
  refine ⟨fun hwf => ?answered, fun hwf => ⟨_, step_of_decode_error hreq (decode_eq_error_of_not_wellFormed hwf)⟩⟩
  case answered =>
    obtain ⟨i, hdec⟩ := exists_decode_eq_ok_of_wellFormed hwf
    rw [step_of_decode_ok hreq hdec]
    rcases exec_cases i { s with requests := rest } with ⟨y, h⟩ | ⟨le, off, d, -, -, h⟩ | ⟨off, hoff, hout, h⟩
    · exact ⟨_, h, rfl, .inl ⟨_, rfl⟩⟩
    · exact ⟨_, h, rfl, .inl ⟨_, rfl⟩⟩
    · obtain rfl := accessOffset_of_decode_eq_ok hdec hoff
      exact ⟨_, h, rfl, .inr ⟨rfl, rfl, hout⟩⟩

/-! ### Invariants -/

/-- An admitted store keeps the cells in order and puts its own inside the buffer. -/
theorem inv_store {s : State} (hs : s.Inv) {le : ByteOrder} {off : Nat} {h : Half} (hin : off + 2 ≤ s.bufLen) :
    (s.store le off h).Inv := by
  obtain ⟨hwf, hcells⟩ := hs
  refine ⟨wf_writeBytes _ _ _ hwf, fun c hc => ?_⟩
  rcases mem_writeBytes hc with ⟨-, hlt⟩ | hold
  · exact hlt.trans_le hin
  · exact hcells c hold

/-- Settles O53: the invariant speaks of the buffer and its length alone, and of those an operation changes at most the
buffer, by an admitted store. -/
theorem stepKeepsTheBufferWellFormed : Obligations.StepKeepsTheBufferWellFormed := by
  intro s t hs hstep
  rcases step_eq_next_cases hstep with ⟨-, rfl⟩ | ⟨r, rest, i, -, -, hexec⟩
  · exact hs
  · rcases exec_cases i { s with requests := rest } with ⟨y, h⟩ | ⟨le, off, d, -, hin, h⟩ | ⟨off, -, -, h⟩
    all_goals obtain rfl := Host.Outcome.next.inj (h.symm.trans hexec)
    · exact hs
    · exact inv_store (s := { s with requests := rest }) hs hin
    · exact hs

/-- Settles O54: the reset buffer lists no cell. -/
theorem resetBufferIsWellFormed : Obligations.ResetBufferIsWellFormed := by
  refine ⟨List.Pairwise.nil, fun c hc => ?_⟩
  cases hc

/-- Settles O59: the lists of the reset state are empty, and an empty buffer looks up as nothing at every offset. -/
theorem resetKnowsNothing : Obligations.ResetKnowsNothing := ⟨rfl, rfl, rfl, fun _ => rfl⟩

/-- Settles O55: the one report a step can add is of an access that was not admitted. -/
theorem stepKeepsReportsTrue : Obligations.StepKeepsReportsTrue := by
  intro s t hs hstep off hmem
  rcases step_eq_next_cases hstep with ⟨-, rfl⟩ | ⟨r, rest, i, -, -, hexec⟩
  · exact hs off hmem
  · rcases exec_cases i { s with requests := rest } with ⟨y, h⟩ | ⟨le, k, d, -, -, h⟩ | ⟨k, -, hout, h⟩
    all_goals
      obtain rfl := Host.Outcome.next.inj (h.symm.trans hexec)
      rcases List.mem_cons.1 hmem with hnew | hold
    case inr.inr.inl => cases hnew; exact hout
    case inl.inl | inr.inl.inl => cases hnew
    all_goals exact hs off hold

/-! ### Runs -/

section Run
variable {n : Nat} {s t u : State}

theorem run_succ_of_step (hstep : step s = .next u) :
    Host.Core.run Sys2Proof.core (n + 1) s = Host.Core.run Sys2Proof.core n u := by
  simp only [Host.Core.run, core, hstep]

/-- A run of one step more that reaches a next state begins with a step that does. -/
theorem exists_step_of_run_succ (hrun : Host.Core.run Sys2Proof.core (n + 1) s = .next t) :
    ∃ u, step s = .next u ∧ Host.Core.run Sys2Proof.core n u = .next t := by
  cases hstep : step s with
  | next u => exact ⟨u, rfl, (run_succ_of_step hstep).symm.trans hrun⟩
  | fault e => simp [Host.Core.run, core, hstep] at hrun
  | refused e => simp [Host.Core.run, core, hstep] at hrun

end Run

/-- No pending request is a store to the byte at `k`. -/
def State.StoresAvoid (s : State) (k : Nat) : Prop :=
  ∀ r ∈ s.requests, ∀ le off d, decode r = .ok (.encst16 le off d) → ¬ touches off k

/-- A step takes requests away and never adds one, so it keeps that none is a store to `k`, and then the byte at `k`
stays. -/
theorem step_keeps_storesAvoid {s t : State} {k : Nat} (havoid : s.StoresAvoid k) (hstep : step s = .next t) :
    t.StoresAvoid k ∧ Memory.readByte t.buf k = Memory.readByte s.buf k := by
  rcases step_eq_next_cases hstep with ⟨-, rfl⟩ | ⟨r, rest, i, hreq, hdec, hexec⟩
  · exact ⟨havoid, rfl⟩
  · obtain ⟨-, hrest, -⟩ := exec_frame hexec
    unfold State.StoresAvoid at havoid ⊢
    rw [hreq] at havoid
    rw [hrest]
    refine ⟨fun q hq => havoid q (List.mem_cons_of_mem _ hq), readByte_of_exec hexec fun le off d hi => ?_⟩
    exact havoid r List.mem_cons_self le off d (hi ▸ hdec)

/-- Settles O58, by induction on the number of steps: `State.StoresAvoid` holds along the run, and with it each step
keeps the byte. -/
theorem runKeepsUntouchedBytes : Obligations.RunKeepsUntouchedBytes := by
  intro n
  induction n with
  | zero =>
    intro s t k _ hrun
    cases hrun; rfl
  | succ n ih =>
    intro s t k havoid hrun
    obtain ⟨u, hstep, hrun⟩ := exists_step_of_run_succ hrun
    obtain ⟨havoid', hbyte⟩ := step_keeps_storesAvoid havoid hstep
    exact (ih u t k havoid' hrun).trans hbyte

/-- Settles O57, by induction on the pending requests: each step takes one and adds its answer. -/
theorem runAnswersEveryRequest : Obligations.RunAnswersEveryRequest := by
  intro s hwf
  generalize hreq : s.requests = reqs at hwf ⊢
  induction reqs generalizing s with
  | nil => exact ⟨s, [], rfl, hreq, rfl, rfl, rfl⟩
  | cons r rest ih =>
    obtain ⟨u, a, hstep, hrest, hresp, hlen⟩ := step_answers hreq (hwf r List.mem_cons_self)
    obtain ⟨t, new, hrun, hnone, hnew, hcount, hkept⟩ := ih u hrest fun q hq => hwf q (List.mem_cons_of_mem _ hq)
    refine ⟨t, new ++ [a], (run_succ_of_step hstep).trans hrun, hnone, ?_, by simp [hcount], hkept.trans hlen⟩
    rw [hnew, hresp, List.append_assoc, List.singleton_append]

end Sys2Proof.Machine

/-! PROOFS. The decoder's other properties (spec/40_decoder.md sections 2 and 5): one pattern for a value, the order of
magnitudes, the route through binary32 and the normalising loop. -/

namespace Sys2Proof.Machine

/-- Settles O13: a pattern with these fields is a NaN, and every NaN decodes to CANON_NAN64. -/
theorem dec16NaNBits : Obligations.Dec16NaNBits := by
  intro h s he hm
  refine (completesWith_dec16_iff h s _).2 (decodePattern_of_nan ((isNaN16_iff h).2 ⟨?_, ?_⟩))
  · exact (exp16_eq_toNat_iff h 31).2 he
  · exact mt (man16_eq_toNat_iff h 0).1 hm

/-! ### Values and patterns of binary16 (R3) -/

theorem toNat_mod_eq_fields (h : Half) : h.toNat % 2 ^ 15 = exp16 h * 2 ^ 10 + man16 h := by
  rw [exp16_eq, man16_eq]
  omega

/-- A binary16 pattern is its three fields (R2). -/
theorem pack16_fields (h : Half) : pack16 (sign16 h) (exp16 h * 2 ^ 10 + man16 h) = h := by
  apply BitVec.eq_of_toNat_eq
  have hlt := h.isLt
  rw [toNat_pack16, ← toNat_mod_eq_fields, Nat.mod_mod, sign16_eq]
  by_cases hs : 2 ^ 15 ≤ h.toNat
  · rw [decide_eq_true hs, if_pos rfl]; omega
  · rw [decide_eq_false hs, if_neg (by simp)]; omega

theorem valueOf_eq_nan_iff {T : Format} (hT : allOnes T ≠ 0) (s : Bool) (e m : Nat) :
    valueOf T s e m = .nan ↔ e = allOnes T ∧ m ≠ 0 := by
  refine ⟨fun h => ?_, ?_⟩
  · unfold valueOf at h
    split_ifs at h with _ _ hones hm
    exact ⟨hones, hm⟩
  · rintro ⟨rfl, hm⟩
    exact valueOf_nan T s hT hm

theorem val16_eq_nan_iff (h : Half) : val16 h = .nan ↔ isNaN16 h = true :=
  (valueOf_eq_nan_iff (by decide) _ _ _).trans (isNaN16_iff h).symm

theorem val64_eq_nan_iff (d : Double) : val64 d = .nan ↔ isNaN64 d = true :=
  (valueOf_eq_nan_iff (by decide) _ _ _).trans (isNaN64_iff d).symm

/-- Off NaN a value has at most one binary16 pattern. -/
theorem eq_of_val16_eq {h h' : Half} (heq : val16 h = val16 h') (hnan : val16 h' ≠ .nan) : h = h' := by
  obtain ⟨hs, he, hm⟩ := valueOf_inj (T := binary16) (man16_lt h) (man16_lt h') heq hnan
  rw [← pack16_fields h, ← pack16_fields h', hs, he, hm]

/-- Settles O15: decoding keeps the value (R65), and off NaN the value has one pattern. -/
theorem dec16InjectiveOffNaN : Obligations.Dec16InjectiveOffNaN := by
  intro s h₁ h₂ y _ hn₂ hy₁ hy₂
  rw [completesWith_dec16_iff] at hy₁ hy₂
  refine eq_of_val16_eq ?_ (mt (val16_eq_nan_iff h₂).1 (by simp [hn₂]))
  rw [← val64_decodePattern, ← val64_decodePattern, hy₁, hy₂]

/-! ### The order of magnitudes (R68) -/

section Order
variable {T : Format} {e e' m m' : Nat}

theorem magnitude_valueOf (s : Bool) (he : e ≠ allOnes T) :
    (valueOf T s e m).magnitude = subnormalUnits T e m * 2 ^ unitShift T := by
  by_cases hzero : e = 0
  · subst hzero
    by_cases hm : m = 0
    · rw [hm, valueOf_zero]
      exact (Nat.zero_mul _).symm
    · rw [valueOf_subnormal T s hm]; rfl
  · rw [valueOf_normal T s hzero he, subnormalUnits_of_ne_zero T hzero, mul_assoc, ← pow_add]; rfl

/-- Magnitudes rise with the exponent field, and at one exponent field with the mantissa field. -/
theorem subnormalUnits_lt_of_fields_lt (hm : m < 2 ^ T.w) (hlt : e < e' ∨ e = e' ∧ m < m') :
    subnormalUnits T e m < subnormalUnits T e' m' := by
  rcases hlt with hlt | ⟨rfl, hlt⟩
  · exact subnormalUnits_lt_of_exp_lt T hm hlt
  · by_cases he : e = 0
    · simpa [subnormalUnits, he] using hlt
    · rw [subnormalUnits_of_ne_zero T he, subnormalUnits_of_ne_zero T he]
      exact Nat.mul_lt_mul_of_pos_right (Nat.add_lt_add_left hlt _) (Nat.two_pow_pos _)

/-- The finite values of the three formats stay below 2^1024, where infinity stands. -/
theorem format_top : ∀ T ∈ [binary16, binary32, binary64], T.w + (allOnes T - 1) + unitShift T ≤ 2098 := by decide

theorem two_pow_le_powerOfTwo {k : Nat} {i : Int} (h : (k : Int) ≤ i + 1074) : 2 ^ k ≤ powerOfTwo i :=
  Nat.pow_le_pow_right two_pos (by omega)

/-- The order of the fields goes over to the magnitudes of the values, infinity above every finite one. -/
theorem magnitude_valueOf_lt (hT : T ∈ [binary16, binary32, binary64]) (s s' : Bool) (hm : m < 2 ^ T.w)
    (he : e ≤ allOnes T) (he' : e' ≤ allOnes T) (hnan : valueOf T s' e' m' ≠ .nan)
    (hlt : e < e' ∨ e = e' ∧ m < m') : (valueOf T s e m).magnitude < (valueOf T s' e' m').magnitude := by
  obtain ⟨-, hones⟩ := format_bounds T hT
  rw [Ne, valueOf_eq_nan_iff hones] at hnan
  have hfin : e ≠ allOnes T := by omega
  rw [magnitude_valueOf s hfin]
  by_cases hinf : e' = allOnes T
  · obtain rfl : m' = 0 := by_contra fun hm' => hnan ⟨hinf, hm'⟩
    have htop := format_top T hT
    rw [hinf, valueOf_infinite T s' hones]
    calc
      _ < 2 ^ (T.w + e) * 2 ^ unitShift T := Nat.mul_lt_mul_of_pos_right (subnormalUnits_lt T hm) (Nat.two_pow_pos _)
      _ = 2 ^ (T.w + e + unitShift T) := (pow_add _ _ _).symm
      _ ≤ powerOfTwo 1024 := two_pow_le_powerOfTwo (by omega)
  · rw [magnitude_valueOf s' hinf]
    exact Nat.mul_lt_mul_of_pos_right (subnormalUnits_lt_of_fields_lt hm hlt) (Nat.two_pow_pos _)

end Order

/-- For patterns that are no NaN the order of the 15 low bits goes over to the magnitudes, whatever the signs. -/
theorem magnitude_val16_lt {h h' : Half} (hnan : val16 h' ≠ .nan) (hlt : h.toNat % 2 ^ 15 < h'.toNat % 2 ^ 15) :
    (val16 h).magnitude < (val16 h').magnitude := by
  rw [toNat_mod_eq_fields, toNat_mod_eq_fields] at hlt
  have hm := man16_lt h
  have hm' := man16_lt h'
  refine magnitude_valueOf_lt (T := binary16) (by simp) _ _ hm (Nat.le_of_lt_succ (exp16_lt h))
    (Nat.le_of_lt_succ (exp16_lt h')) hnan ?_
  omega

/-- Patterns with the same 15 low bits have the same magnitude. -/
theorem magnitude_val16_congr {h h' : Half} (heq : h.toNat % 2 ^ 15 = h'.toNat % 2 ^ 15) :
    (val16 h).magnitude = (val16 h').magnitude := by
  rw [toNat_mod_eq_fields, toNat_mod_eq_fields] at heq
  have hm := man16_lt h
  have hm' := man16_lt h'
  obtain ⟨he, hman⟩ : exp16 h = exp16 h' ∧ man16 h = man16 h' := by omega
  rw [val16, val16, he, hman]
  unfold valueOf
  split_ifs <;> rfl

/-- Settles O16: decoded magnitudes are those of the patterns (R65), which rise with the 15 low bits; the other
direction by trichotomy. -/
theorem dec16KeepsTheOrderOfMagnitudes : Obligations.Dec16KeepsTheOrderOfMagnitudes := by
  intro s h₁ h₂ y₁ y₂ hn₁ hn₂ _ hy₁ hy₂
  rw [completesWith_dec16_iff] at hy₁ hy₂
  rw [← hy₁, ← hy₂, val64_decodePattern, val64_decodePattern]
  have hnan₁ : val16 h₁ ≠ .nan := mt (val16_eq_nan_iff h₁).1 (by simp [hn₁])
  have hnan₂ : val16 h₂ ≠ .nan := mt (val16_eq_nan_iff h₂).1 (by simp [hn₂])
  refine ⟨magnitude_val16_lt hnan₂, fun hmag => ?_⟩
  rcases Nat.lt_trichotomy (h₁.toNat % 2 ^ 15) (h₂.toNat % 2 ^ 15) with hlt | heq | hgt
  · exact hlt
  · exact absurd (magnitude_val16_congr heq) hmag.ne
  · exact absurd (magnitude_val16_lt hnan₁ hgt) hmag.asymm

/-! ### The route through binary32 (R63, R64) -/

/-- The fields of a binary32 pattern assembled from fields, as a number. -/
theorem toNat_pack32 (s : Bool) (e f : Nat) :
    (pack32 s e f).toNat = (if s then 2 ^ 31 else 0) + e % 2 ^ 8 * 2 ^ 23 + f % 2 ^ 23 := by
  have hf : f % 2 ^ 23 < 2 ^ 23 := Nat.mod_lt _ (by norm_num)
  have he : e % 2 ^ 8 < 2 ^ 8 := Nat.mod_lt _ (by norm_num)
  rw [pack32, BitVec.toNat_append, BitVec.toNat_ofNat, Nat.shiftLeft_eq, Nat.mul_comm,
    ← Nat.two_pow_add_eq_or_of_lt hf, BitVec.toNat_append, BitVec.toNat_ofNat, Nat.shiftLeft_eq,
    Nat.mul_comm _ (2 ^ 8), ← Nat.two_pow_add_eq_or_of_lt he]
  cases s <;> simp <;> omega

@[simp] theorem exp32_pack32 (s : Bool) (e f : Nat) : exp32 (pack32 s e f) = e % 2 ^ 8 := by
  rw [exp32, BitVec.extractLsb'_toNat, Nat.shiftRight_eq_div_pow, toNat_pack32]
  split <;> omega

@[simp] theorem man32_pack32 (s : Bool) (e f : Nat) : man32 (pack32 s e f) = f % 2 ^ 23 := by
  rw [man32, BitVec.extractLsb'_toNat, Nat.shiftRight_zero, toNat_pack32]
  split <;> omega

@[simp] theorem sign32_pack32 (s : Bool) (e f : Nat) : sign32 (pack32 s e f) = s := by
  rw [sign32, BitVec.getLsbD, Nat.testBit_eq_decide_div_mod_eq, toNat_pack32]
  cases s <;> simp <;> omega

/-- The second step of the route on a pattern given by its fields, for each of its three cases (R63). -/
theorem widen32_pack32 (s : Bool) {e f : Nat} (he : e < 2 ^ 8) (hf : f < 2 ^ 23) :
    widen32 (pack32 s e f) =
      pack64 s (if e = 0 then 0 else if e = 255 then 2047 else e + 896) (f * 2 ^ 29) := by
  rw [widen32, exp32_pack32, man32_pack32, sign32_pack32, Nat.mod_eq_of_lt he, Nat.mod_eq_of_lt hf, Nat.shiftLeft_eq]
  split_ifs <;> rfl

/-- The loop shifts `j` places when the highest set bit stands `j` places below bit 10 and it has the rounds. -/
theorem normalizeLoop_eq {k j m p : Nat} (e : Int) (hp : p + j = 10) (hjk : j ≤ k) (hle : 2 ^ p ≤ m)
    (hlt : m < 2 ^ (p + 1)) : normalizeLoop k m e = (m * 2 ^ j, e - j) := by
  induction j generalizing k m p e with
  | zero =>
    obtain rfl : p = 10 := hp
    have hbit : m.testBit 10 = true := by
      rw [Nat.testBit_eq_decide_div_mod_eq, decide_eq_true_eq]
      omega
    cases k <;> simp [normalizeLoop, hbit]
  | succ j ih =>
    obtain ⟨k, rfl⟩ : ∃ k', k = k' + 1 := ⟨k - 1, by omega⟩
    have hbit : m.testBit 10 = false :=
      Nat.testBit_lt_two_pow (hlt.trans_le (Nat.pow_le_pow_right two_pos (by omega)))
    have hshift : normalizeLoop k (m <<< 1) (e - 1) = (m <<< 1 * 2 ^ j, e - 1 - j) := by
      refine ih (p := p + 1) (e - 1) (by omega) (by omega) ?_ ?_
      all_goals rw [Nat.shiftLeft_eq, pow_succ]; omega
    rw [normalizeLoop, hbit, if_neg Bool.false_ne_true, hshift, Nat.shiftLeft_eq, mul_assoc, ← pow_add]
    push_cast
    rw [Nat.add_comm 1 j, sub_sub, add_comm (1 : Int)]

/-- The closed form of R64: one to ten rounds. -/
theorem normalizeSubnormal_eq {m p : Nat} (hp : p ≤ 9) (hle : 2 ^ p ≤ m) (hlt : m < 2 ^ (p + 1)) :
    normalizeSubnormal m = (m * 2 ^ (10 - p), -14 - ((10 - p : Nat) : Int)) :=
  normalizeLoop_eq (-14) (by omega) (by omega) hle hlt

/-- Both routes give the same 64 bits: in each case of R61 the two re-biasings add up to the one of the closed form. -/
theorem decodeVia32_eq (h : Half) : decodeVia32 h = decodePattern h := by
  have hman := man16_lt h
  have hexp := exp16_lt h
  cases hn : isNaN16 h
  case true => rw [decodePattern_of_nan hn, decodeVia32, if_pos hn]
  case false =>
    have hne : ¬ (exp16 h = 31 ∧ man16 h ≠ 0) := by rw [← isNaN16_iff, hn]; decide
    rw [decodeVia32, hn, if_neg Bool.false_ne_true, decodeTo32]
    split_ifs with hzero hsub hinf
    · rw [widen32_pack32 _ (by norm_num) (by norm_num), decodePattern_of_zero hzero.1 hzero.2]
      rfl
    · have hm : man16 h ≠ 0 := fun hm => hzero ⟨hsub, hm⟩
      have hp := msb_man16_lt h hm
      obtain ⟨hle, hlt⟩ := (msb_eq_iff hm).1 rfl
      have hexponent : (-14 - ((10 - msb (man16 h) : Nat) : Int) + 127).toNat = msb (man16 h) + 103 := by omega
      have hmantissa : man16 h * 2 ^ (10 - msb (man16 h)) % 2 ^ 10 * 2 ^ 13 * 2 ^ 29 =
          man16 h * 2 ^ (52 - msb (man16 h)) % 2 ^ 52 := by
        rw [mul_assoc, ← pow_add, ← Nat.mul_mod_mul_right, mul_assoc, ← pow_add, ← pow_add]
        congr 3
        omega
      rw [decodePattern_of_subnormal hsub hle hlt, normalizeSubnormal_eq (by omega) hle hlt, hexponent,
        Nat.shiftLeft_eq, widen32_pack32 _ (by omega) (by omega), if_neg (by omega), if_neg (by omega), hmantissa,
        pack64_mod]
    · obtain hm : man16 h = 0 := by_contra fun hm => hne ⟨hinf, hm⟩
      rw [hm, widen32_pack32 _ (by norm_num) (by norm_num), decodePattern_of_infinite hinf hm]
      rfl
    · rw [Nat.shiftLeft_eq, widen32_pack32 _ (by omega) (by omega), if_neg (by omega), if_neg (by omega),
        decodePattern_of_normal hsub hinf, mul_assoc]
      rfl

/-- Settles O17: the routes by `decodeVia32_eq`, the loop by its closed form. -/
theorem decoderRoutesAgree : Obligations.DecoderRoutesAgree :=
  ⟨fun h s => (completesWith_dec16_iff h s _).2 (decodeVia32_eq h).symm, fun _ _ => normalizeSubnormal_eq⟩

end Sys2Proof.Machine

/-! PROOFS. Rounding (spec/41_encoder.md sections 2 and 3): the rounding rule of R75 as the nearest multiple of a power
of two, and the spacing of a format at the magnitude of a binary64 pattern (R80). -/

namespace Sys2Proof.Machine

/-! ### The rounding rule by the remainder (R75) -/

/-- Rounding keeps the quotient or adds one to it, by where the remainder stands against the half, and by the parity of
the quotient when it is the half. -/
theorem rne_by_remainder (sig : Nat) {sh : Nat} (hsh : 1 ≤ sh) :
    (rne sig sh = sig / 2 ^ sh ∧
      (2 * (sig % 2 ^ sh) < 2 ^ sh ∨ 2 * (sig % 2 ^ sh) = 2 ^ sh ∧ sig / 2 ^ sh % 2 = 0)) ∨
    (rne sig sh = sig / 2 ^ sh + 1 ∧
      (2 * (sig % 2 ^ sh) > 2 ^ sh ∨ 2 * (sig % 2 ^ sh) = 2 ^ sh ∧ sig / 2 ^ sh % 2 = 1)) := by
  obtain ⟨k, rfl⟩ : ∃ k, sh = k + 1 := ⟨sh - 1, by omega⟩
  have hhalf : 2 ^ (k + 1) = 2 * 2 ^ k := by rw [pow_succ, Nat.mul_comm]
  have hrem : sig % 2 ^ (k + 1) = sig % 2 ^ k + 2 ^ k * (sig / 2 ^ k % 2) := by rw [pow_succ, Nat.mod_mul]
  have hlow : sig % 2 ^ k < 2 ^ k := Nat.mod_lt _ (Nat.two_pow_pos k)
  have hup := roundsUp_iff sig (k + 1)
  rw [Nat.add_sub_cancel] at hup
  rcases Nat.mod_two_eq_zero_or_one (sig / 2 ^ k) with hbit | hbit
  · have hdown : roundsUp sig (k + 1) = false := by
      rw [Bool.eq_false_iff, Ne, hup]
      omega
    rw [hbit, Nat.mul_zero] at hrem
    rcases rne_cases sig (k + 1) with ⟨h, -⟩ | ⟨-, hrne⟩
    · simp [hdown] at h
    · exact .inl ⟨hrne, .inl (by omega)⟩
  · rw [hbit, Nat.mul_one] at hrem
    rcases rne_cases sig (k + 1) with ⟨h, hrne⟩ | ⟨h, hrne⟩
    · obtain ⟨-, hsticky⟩ := hup.1 h
      exact .inr ⟨hrne, by omega⟩
    · have hsticky : ¬ (sig % 2 ^ k ≠ 0 ∨ sig / 2 ^ (k + 1) % 2 = 1) := fun hs => by
        simp [hup.2 ⟨hbit, hs⟩] at h
      exact .inl ⟨hrne, by omega⟩

/-- Settles O24: quotient and remainder make up the number, and the remainder is the distance to the quotient or what is
missing to the next. -/
theorem roundingIsNearestTiesToEven : Obligations.RoundingIsNearestTiesToEven := by
  intro sig sh hsh
  have hdecomp := Nat.div_add_mod' sig (2 ^ sh)
  have hrem : sig % 2 ^ sh < 2 ^ sh := Nat.mod_lt _ (Nat.two_pow_pos sh)
  have hmod : sig % 2 ^ sh ≤ sig := Nat.mod_le _ _
  have hhalf : 2 * 2 ^ (sh - 1) = 2 ^ sh := by rw [← pow_succ', Nat.sub_add_cancel hsh]
  rcases rne_by_remainder sig hsh with ⟨hrne, hpos⟩ | ⟨hrne, hpos⟩
  · rw [hrne]
    exact ⟨by omega, by omega, by omega, fun hlt => Nat.div_eq_of_lt (by omega)⟩
  · rw [hrne, Nat.add_mul, Nat.one_mul]
    exact ⟨by omega, by omega, by omega, fun hlt => by omega⟩

/-! ### The nearest multiple (R80) -/

section NearestMultiple
variable (x : Nat) {x' q : Nat}

/-- The nearest multiple is the one at or below the number or the next, by the remainder and the parity. -/
theorem nearestMultiple_by_remainder (q : Nat) :
    (nearestMultiple x q = x / q * q ∧ (2 * (x % q) < q ∨ 2 * (x % q) = q ∧ x / q % 2 = 0)) ∨
    (nearestMultiple x q = x / q * q + q ∧ (2 * (x % q) > q ∨ 2 * (x % q) = q ∧ x / q % 2 = 1)) := by
  unfold nearestMultiple
  simp only [Nat.add_mul, Nat.one_mul]
  split_ifs with hlt hgt heven
  · exact .inl ⟨rfl, .inl hlt⟩
  · exact .inr ⟨rfl, .inl hgt⟩
  · exact .inl ⟨rfl, .inr ⟨by omega, heven⟩⟩
  · exact .inr ⟨rfl, .inr ⟨by omega, by omega⟩⟩

/-- The rule of the bits of R75 is the rule of R80 at a power of two. -/
theorem rne_mul_two_pow (sig : Nat) {sh : Nat} (hsh : 1 ≤ sh) :
    rne sig sh * 2 ^ sh = nearestMultiple sig (2 ^ sh) := by
  rcases rne_by_remainder sig hsh with ⟨hrne, hr⟩ | ⟨hrne, hr⟩ <;>
  rcases nearestMultiple_by_remainder sig (2 ^ sh) with ⟨hnear, hn⟩ | ⟨hnear, hn⟩
  · rw [hrne, hnear]
  · omega
  · omega
  · rw [hrne, hnear, Nat.add_mul, Nat.one_mul]

theorem dvd_nearestMultiple (q : Nat) : q ∣ nearestMultiple x q := by
  rcases nearestMultiple_by_remainder x q with ⟨h, -⟩ | ⟨h, -⟩ <;> rw [h]
  · exact Nat.dvd_mul_left _ _
  · exact Nat.dvd_add (Nat.dvd_mul_left _ _) dvd_rfl

theorem nearestMultiple_eq_self_iff (hq : 0 < q) : nearestMultiple x q = x ↔ q ∣ x := by
  refine ⟨fun h => h ▸ dvd_nearestMultiple x q, fun hdvd => ?_⟩
  have hrem := Nat.mod_eq_zero_of_dvd hdvd
  rcases nearestMultiple_by_remainder x q with ⟨h, -⟩ | ⟨-, hr⟩
  · rw [h, Nat.div_mul_cancel hdvd]
  · omega

theorem nearestMultiple_mul {c : Nat} (hc : 0 < c) (q : Nat) :
    nearestMultiple (x * c) (q * c) = nearestMultiple x q * c := by
  unfold nearestMultiple
  rw [Nat.mul_mod_mul_right, Nat.mul_div_mul_right _ _ hc, ← mul_assoc, ← mul_assoc]
  simp only [gt_iff_lt, Nat.mul_lt_mul_right hc, ← mul_assoc, ite_mul]

/-- The nearest multiple of a number is 0 up to half the step, the tie included, 0 being even. -/
theorem nearestMultiple_eq_zero_iff (hq : 0 < q) : nearestMultiple x q = 0 ↔ 2 * x ≤ q := by
  have hdecomp := Nat.div_add_mod' x q
  have hrem := Nat.mod_lt x hq
  constructor
  · intro h
    rcases nearestMultiple_by_remainder x q with ⟨hdown, hr⟩ | ⟨hup, -⟩ <;> omega
  · intro hle
    have hquot : x / q = 0 := Nat.div_eq_of_lt (by omega)
    rw [hquot, Nat.zero_mul] at hdecomp
    rcases nearestMultiple_by_remainder x q with ⟨hdown, -⟩ | ⟨-, hr⟩
    · rw [hdown, hquot, Nat.zero_mul]
    · omega

theorem nearestMultiple_le_of_lt (hlt : x < q) : nearestMultiple x q = 0 ∨ nearestMultiple x q = q := by
  have hquot : x / q = 0 := Nat.div_eq_of_lt hlt
  rcases nearestMultiple_by_remainder x q with ⟨h, -⟩ | ⟨h, -⟩
  · exact .inl (by rw [h, hquot, Nat.zero_mul])
  · exact .inr (by rw [h, hquot, Nat.zero_mul, Nat.zero_add])

variable {x}

theorem nearestMultiple_mono (hle : x ≤ x') (q : Nat) : nearestMultiple x q ≤ nearestMultiple x' q := by
  have hdecomp := Nat.div_add_mod' x q
  have hdecomp' := Nat.div_add_mod' x' q
  rcases (Nat.div_le_div_right (c := q) hle).eq_or_lt with heq | hlt
  · rw [heq] at hdecomp
    rcases nearestMultiple_by_remainder x q with ⟨h, hr⟩ | ⟨h, hr⟩ <;>
    rcases nearestMultiple_by_remainder x' q with ⟨h', hr'⟩ | ⟨h', hr'⟩ <;>
    rw [h, h', heq] <;> omega
  · have hnext : x / q * q + q ≤ x' / q * q := by
      rw [← Nat.succ_mul]
      exact Nat.mul_le_mul_right q hlt
    rcases nearestMultiple_by_remainder x q with ⟨h, -⟩ | ⟨h, -⟩ <;>
    rcases nearestMultiple_by_remainder x' q with ⟨h', -⟩ | ⟨h', -⟩ <;> omega

/-- A multiple of the step bounds the rounded number from above where it bounds the number. -/
theorem nearestMultiple_le_of_dvd {b : Nat} (hq : 0 < q) (hdvd : q ∣ b) (hle : x ≤ b) : nearestMultiple x q ≤ b :=
  (nearestMultiple_mono hle q).trans_eq ((nearestMultiple_eq_self_iff b hq).2 hdvd)

theorem le_nearestMultiple_of_dvd {b : Nat} (hq : 0 < q) (hdvd : q ∣ b) (hle : b ≤ x) : b ≤ nearestMultiple x q :=
  ((nearestMultiple_eq_self_iff b hq).2 hdvd).symm.trans_le (nearestMultiple_mono hle q)

/-- Rounding reaches an even multiple from half a step below it, the tie included. -/
theorem even_mul_le_nearestMultiple_iff {a : Nat} (ha : a % 2 = 0) (hpos : 0 < a) (hq : 0 < q) :
    a * q ≤ nearestMultiple x q ↔ 2 * (a * q) ≤ 2 * x + q := by
  have hdecomp := Nat.div_add_mod' x q
  have hrem := Nat.mod_lt x hq
  rcases Nat.lt_trichotomy (x / q + 1) a with hlt | rfl | hgt
  · have hbelow : x / q * q + q + q ≤ a * q := by
      calc
        _ = (x / q + 1 + 1) * q := by ring
        _ ≤ a * q := Nat.mul_le_mul_right q hlt
    rcases nearestMultiple_by_remainder x q with ⟨h, -⟩ | ⟨h, -⟩ <;> omega
  · rw [Nat.add_mul, Nat.one_mul]
    rcases nearestMultiple_by_remainder x q with ⟨h, hr⟩ | ⟨h, hr⟩ <;> omega
  · have habove : a * q ≤ x / q * q := Nat.mul_le_mul_right q (Nat.le_of_lt_succ hgt)
    rcases nearestMultiple_by_remainder x q with ⟨h, -⟩ | ⟨h, -⟩ <;> omega

end NearestMultiple

/-! ### Powers of two in the unit of values (log entry 12) -/

theorem powerOfTwo_pos (i : Int) : 0 < powerOfTwo i := Nat.two_pow_pos _

theorem powerOfTwo_add {i j : Int} (k : Nat) (hi : -1074 ≤ i) (hj : j = k + i) :
    powerOfTwo j = 2 ^ k * powerOfTwo i := by
  rw [powerOfTwo, powerOfTwo, ← pow_add]
  congr 1
  omega

theorem powerOfTwo_dvd {i j : Int} (h : i ≤ j) : powerOfTwo i ∣ powerOfTwo j := pow_dvd_pow 2 (by omega)

theorem powerOfTwo_le {i j : Int} (h : i ≤ j) : powerOfTwo i ≤ powerOfTwo j :=
  Nat.le_of_dvd (powerOfTwo_pos j) (powerOfTwo_dvd h)

/-! ### Values of binary64 patterns -/

section Finite
variable {d : Double}

theorem val64_eq_finite (hones : exp64 d ≠ 2047) (hzero : ¬ (exp64 d = 0 ∧ man64 d = 0)) :
    val64 d = .finite (sign64 d) (val64 d).magnitude := by
  by_cases he : exp64 d = 0
  · have hm : man64 d ≠ 0 := fun hm => hzero ⟨he, hm⟩
    rw [val64, he, valueOf_subnormal _ _ hm]; rfl
  · rw [val64, valueOf_normal binary64 _ he hones]; rfl

/-- A finite nonzero value comes from the fields of R3's two finite classes. -/
theorem of_val64_eq_finite {neg : Bool} {m : Nat} (h : val64 d = .finite neg m) :
    exp64 d ≠ 2047 ∧ ¬ (exp64 d = 0 ∧ man64 d = 0) ∧ sign64 d = neg ∧ (val64 d).magnitude = m := by
  obtain ⟨hsign, -⟩ := fields_of_valueOf_eq_finite h
  refine ⟨fun hones => ?_, fun hz => ?_, hsign, by rw [h]; rfl⟩
  · rw [val64, hones] at h
    by_cases hm : man64 d = 0
    · rw [hm] at h
      exact Value.noConfusion ((valueOf_infinite binary64 _ (by decide)).symm.trans h)
    · exact Value.noConfusion ((valueOf_nan binary64 _ (by decide) hm).symm.trans h)
  · rw [val64, hz.1, hz.2] at h
    exact Value.noConfusion h

theorem magnitude_val64_of_normal (hones : exp64 d ≠ 2047) (hnormal : -1022 ≤ unbiased64 d) :
    (val64 d).magnitude = sig64 d * powerOfTwo (unbiased64 d - 52) := by
  have he : exp64 d ≠ 0 := exp64_ne_zero_of_lt (by omega)
  have hexp : exp64 d - 1 = (unbiased64 d - 52 + 1074).toNat := by
    unfold unbiased64
    omega
  rw [magnitude_val64 hones, subnormalUnits_of_ne_zero _ he, hexp]
  rfl

theorem magnitude_val64_lt_iff (hones : exp64 d ≠ 2047) {k : Int} (hk : -1022 ≤ k) :
    (val64 d).magnitude < powerOfTwo k ↔ unbiased64 d < k := by
  rw [← not_le, powerOfTwo_le_magnitude_val64_iff hones hk, not_le]

end Finite

/-! ### The spacing of a target at a binary64 magnitude (R80) -/

/-- What the two targets have in common: where their subnormals' unit lies, and that it lies among the normals of
binary64. -/
theorem target_unit : ∀ T ∈ [binary16, binary32],
    (unitShift T : Int) = emin T - T.w + 1074 ∧ -1000 < emin T - T.w ∧ emin T < emax T ∧ T.w ≤ 52 := by decide

theorem two_pow_unitShift {T : Format} (hT : T ∈ [binary16, binary32]) :
    2 ^ unitShift T = powerOfTwo (emin T - T.w) := by
  obtain ⟨hunit, -⟩ := target_unit T hT
  rw [powerOfTwo, ← hunit, Int.toNat_natCast]

section Spacing
variable {T : Format} {d : Double} (hT : T ∈ [binary16, binary32]) (hones : exp64 d ≠ 2047)
include hT hones

/-- The spacing is that of the exponent, and of the smallest normal exponent for those below it. -/
theorem spacing_magnitude_val64 :
    spacing T (val64 d).magnitude = powerOfTwo (max (unbiased64 d) (emin T) - T.w) := by
  obtain ⟨-, hbottom, -, -⟩ := target_unit T hT
  unfold spacing
  by_cases hlow : unbiased64 d < emin T + 1
  · rw [if_pos ((magnitude_val64_lt_iff hones (by omega)).2 hlow), two_pow_unitShift hT,
      max_eq_right (by omega)]
  · rw [if_neg (mt (magnitude_val64_lt_iff hones (by omega)).1 hlow), max_eq_left (by omega)]
    have hge := (powerOfTwo_le_magnitude_val64_iff hones (k := unbiased64 d) (by omega)).2 le_rfl
    have hlt := (magnitude_val64_lt_iff hones (k := unbiased64 d + 1) (by omega)).2 (by omega)
    rw [powerOfTwo_add (i := unbiased64 d) 1 (by omega) (by omega), mul_comm] at hlt
    have hlog : Nat.log2 (val64 d).magnitude = (unbiased64 d + 1074).toNat :=
      (msb_eq_iff ((powerOfTwo_pos _).trans_le hge).ne').2 ⟨hge, hlt⟩
    rw [hlog, powerOfTwo]
    congr 1
    omega

/-- Some power of two, so it can be a step of rounding. -/
theorem spacing_pos : 0 < spacing T (val64 d).magnitude := by
  rw [spacing_magnitude_val64 hT hones]
  exact powerOfTwo_pos _

/-- Rounding keeps the order of magnitudes: between different spacings there is a power of two that both divide. -/
theorem rounded_mono {d' : Double} (hones' : exp64 d' ≠ 2047) (hle : (val64 d).magnitude ≤ (val64 d').magnitude) :
    nearestMultiple (val64 d).magnitude (spacing T (val64 d).magnitude) ≤
      nearestMultiple (val64 d').magnitude (spacing T (val64 d').magnitude) := by
  obtain ⟨-, hbottom, -, -⟩ := target_unit T hT
  have hpos := spacing_pos hT hones
  have hpos' := spacing_pos hT hones'
  rw [spacing_magnitude_val64 hT hones] at hpos ⊢
  rw [spacing_magnitude_val64 hT hones'] at hpos' ⊢
  by_cases hsame : max (unbiased64 d) (emin T) = max (unbiased64 d') (emin T)
  · rw [hsame]
    exact nearestMultiple_mono hle _
  · have hexp : emin T < unbiased64 d' ∧ unbiased64 d < unbiased64 d' := by
      rcases Int.lt_or_le (unbiased64 d) (-1022) with hlow | hnormal
      · omega
      · have := (powerOfTwo_le_magnitude_val64_iff hones' hnormal).1
          (((powerOfTwo_le_magnitude_val64_iff hones hnormal).2 le_rfl).trans hle)
        omega
    calc
      _ ≤ powerOfTwo (unbiased64 d') := by
        refine nearestMultiple_le_of_dvd hpos (powerOfTwo_dvd (by omega)) (le_of_lt ?_)
        exact (magnitude_val64_lt_iff hones (by omega)).2 hexp.2
      _ ≤ _ := by
        refine le_nearestMultiple_of_dvd hpos' (powerOfTwo_dvd (by omega)) ?_
        exact (powerOfTwo_le_magnitude_val64_iff hones' (by omega)).2 le_rfl

end Spacing

/-- The spacing of binary16, with its numbers: emin −14 and w 10. -/
theorem spacing_binary16 {d : Double} (hones : exp64 d ≠ 2047) :
    spacing binary16 (val64 d).magnitude = powerOfTwo (max (unbiased64 d) (-14) - 10) :=
  spacing_magnitude_val64 (by simp) hones

end Sys2Proof.Machine

/-! PROOFS. The labels and rounding (spec/42_classifier.md): in the range of a target the label says whether the spacing
divides the magnitude, hence whether rounding keeps the value (R94). -/

namespace Sys2Proof.Machine

/-! ### The label by the spacing -/

/-- A power of two up to 2^52 divides a mantissa field when it leaves the field's significant bits (R87). -/
theorem two_pow_dvd_iff_significantBits {f k : Nat} (hf : f < 2 ^ 52) (hk : k ≤ 52) :
    2 ^ k ∣ f ↔ k + significantBits f ≤ 52 := by
  obtain ⟨hnone, hcount⟩ := significantBitCount
  rcases Nat.eq_zero_or_pos f with rfl | hpos
  · rw [hnone]
    exact iff_of_true (Nat.dvd_zero _) hk
  · obtain ⟨t, ht, hdvd, hndvd, hbits⟩ := hcount f hpos hf
    rw [hbits]
    constructor
    · intro h
      by_contra hgt
      exact hndvd ((pow_dvd_pow 2 (by omega)).trans h)
    · intro h
      exact (pow_dvd_pow 2 (by omega)).trans hdvd

theorem target_top : ∀ T ∈ [binary16, binary32], emax T < 1024 := by decide

section Labels
variable {T : Format} (hT : T ∈ [binary16, binary32]) {d : Double}
include hT

theorem classify_of_underflow (hzero : ¬ (exp64 d = 0 ∧ man64 d = 0)) (hunder : unbiased64 d < emin T - T.w) :
    classify T d = .underflow := by
  obtain ⟨-, hrange⟩ := target_bounds T hT
  have htop := target_top T hT
  have hones : exp64 d ≠ 2047 := by
    unfold unbiased64 at hunder
    omega
  have hover : ¬ emax T < unbiased64 d := by omega
  simp [classify, hones, hzero, hover, hunder]

/-- The magnitude is a multiple of the spacing when the shortfall and the significant bits fit the width (R90, R91). -/
theorem spacing_dvd_iff (hones : exp64 d ≠ 2047) (hlow : emin T - T.w ≤ unbiased64 d) :
    spacing T (val64 d).magnitude ∣ (val64 d).magnitude ↔
      max (unbiased64 d) (emin T) - unbiased64 d + significantBits (man64 d) ≤ T.w := by
  obtain ⟨-, hbottom, -, hwidth⟩ := target_unit T hT
  obtain ⟨k, hk⟩ : ∃ k : Nat, (k : Int) = 52 - T.w + (max (unbiased64 d) (emin T) - unbiased64 d) :=
    Int.eq_ofNat_of_zero_le (by omega) |>.imp fun _ h => h.symm
  have hsig : 2 ^ k ∣ sig64 d ↔ 2 ^ k ∣ man64 d := Nat.dvd_add_right (pow_dvd_pow 2 (by omega))
  rw [spacing_magnitude_val64 hT hones, magnitude_val64_of_normal hones (by omega),
    powerOfTwo_add (i := unbiased64 d - 52) k (by omega) (by omega), Nat.mul_dvd_mul_iff_right (powerOfTwo_pos _),
    hsig, two_pow_dvd_iff_significantBits (man64_lt d) (by omega)]
  omega

/-- In the target's range the label says whether the magnitude is a multiple of the spacing there. -/
theorem classify_of_in_range (hones : exp64 d ≠ 2047) (hlow : emin T - T.w ≤ unbiased64 d)
    (hhigh : unbiased64 d ≤ emax T) :
    classify T d = if spacing T (val64 d).magnitude ∣ (val64 d).magnitude then .exact else .inexact := by
  have hdvd := spacing_dvd_iff hT hones hlow
  rcases Int.lt_or_le (unbiased64 d) (emin T) with hsub | hnormal
  · rw [classify_of_subnormal_range hT hones hlow hsub]
    rw [max_eq_right hsub.le] at hdvd
    exact if_congr hdvd.symm rfl rfl
  · rw [classify_of_normal_range hT hones hnormal hhigh]
    rw [max_eq_left hnormal, sub_self, zero_add] at hdvd
    exact if_congr (by rw [hdvd]; omega) rfl rfl

/-- The five ways to a label (R86, R88 to R91). -/
theorem classify_cases (d : Double) :
    ((exp64 d = 2047 ∨ exp64 d = 0 ∧ man64 d = 0) ∧ classify T d = .exact) ∨
    exp64 d ≠ 2047 ∧ ¬ (exp64 d = 0 ∧ man64 d = 0) ∧
      (emax T < unbiased64 d ∧ classify T d = .overflow ∨
        unbiased64 d < emin T - T.w ∧ classify T d = .underflow ∨
        emin T - T.w ≤ unbiased64 d ∧ unbiased64 d ≤ emax T ∧
          (spacing T (val64 d).magnitude ∣ (val64 d).magnitude ∧ classify T d = .exact ∨
            ¬ spacing T (val64 d).magnitude ∣ (val64 d).magnitude ∧ classify T d = .inexact)) := by
  by_cases hones : exp64 d = 2047
  · exact .inl ⟨.inl hones, classify_of_exp_ones T hones⟩
  by_cases hzero : exp64 d = 0 ∧ man64 d = 0
  · exact .inl ⟨.inr hzero, classify_of_zero T hzero.1 hzero.2⟩
  refine .inr ⟨hones, hzero, ?_⟩
  by_cases hover : emax T < unbiased64 d
  · exact .inl ⟨hover, classify_of_overflow hT hones hover⟩
  by_cases hunder : unbiased64 d < emin T - T.w
  · exact .inr (.inl ⟨hunder, classify_of_underflow hT hzero hunder⟩)
  have hlabel := classify_of_in_range hT hones (not_lt.1 hunder) (not_lt.1 hover)
  refine .inr (.inr ⟨not_lt.1 hunder, not_lt.1 hover, ?_⟩)
  by_cases hdvd : spacing T (val64 d).magnitude ∣ (val64 d).magnitude
  · exact .inl ⟨hdvd, hlabel.trans (if_pos hdvd)⟩
  · exact .inr ⟨hdvd, hlabel.trans (if_neg hdvd)⟩

end Labels

/-! ### Rounding by the label -/

section Magnitudes
variable {T : Format} {s : Bool} {x : Nat}

theorem roundMagnitude_eq_infinite_iff :
    roundMagnitude T s x = .infinite s ↔ powerOfTwo (emax T + 1) ≤ nearestMultiple x (spacing T x) := by
  unfold roundMagnitude
  split_ifs with hover hzero <;> simp [hover]

theorem roundMagnitude_eq_zero_iff :
    roundMagnitude T s x = .zero s ↔ nearestMultiple x (spacing T x) = 0 := by
  unfold roundMagnitude
  have := powerOfTwo_pos (emax T + 1)
  split_ifs with hover hzero
  · simp only [false_iff]
    omega
  · simp [hzero]
  · simp [hzero]

theorem roundMagnitude_eq_finite_iff {y : Nat} (hy : y ≠ 0) :
    roundMagnitude T s x = .finite s y ↔
      nearestMultiple x (spacing T x) = y ∧ y < powerOfTwo (emax T + 1) := by
  unfold roundMagnitude
  split_ifs with hover hzero
  · simp only [false_iff]
    omega
  · simp only [false_iff]
    omega
  · simp only [Value.finite.injEq, true_and]
    omega

end Magnitudes

section Rounding
variable {T : Format} {d : Double}

theorem roundTo_val64 (hones : exp64 d ≠ 2047) (hzero : ¬ (exp64 d = 0 ∧ man64 d = 0)) :
    roundTo T (val64 d) = roundMagnitude T (sign64 d) (val64 d).magnitude := by
  conv_lhs => rw [val64_eq_finite hones hzero]
  rfl

theorem val64_of_infinite (hones : exp64 d = 2047) (hm : man64 d = 0) : val64 d = .infinite (sign64 d) := by
  rw [val64, hones, hm]
  exact valueOf_infinite binary64 _ (by decide)

theorem val64_of_zero (he : exp64 d = 0) (hm : man64 d = 0) : val64 d = .zero (sign64 d) := by
  rw [val64, he, hm]
  exact valueOf_zero binary64 _

theorem roundTo_of_special (hspecial : exp64 d = 2047 ∨ exp64 d = 0 ∧ man64 d = 0) :
    roundTo T (val64 d) = val64 d := by
  rcases hspecial with hones | ⟨he, hm⟩
  · by_cases hm : man64 d = 0
    · rw [val64_of_infinite hones hm]; rfl
    · rw [(val64_eq_nan_iff d).2 ((isNaN64_iff d).2 ⟨hones, hm⟩)]; rfl
  · rw [val64_of_zero he hm]; rfl

variable (hT : T ∈ [binary16, binary32]) (hones : exp64 d ≠ 2047) (hzero : ¬ (exp64 d = 0 ∧ man64 d = 0))
include hT hones

/-- From 2^(emax + 1) up rounding goes to infinity (R88): the power of two at the exponent is a multiple of the
spacing. -/
theorem le_rounded_of_overflow (hover : emax T < unbiased64 d) :
    powerOfTwo (emax T + 1) ≤ nearestMultiple (val64 d).magnitude (spacing T (val64 d).magnitude) := by
  obtain ⟨-, hbottom, hrange, -⟩ := target_unit T hT
  refine (powerOfTwo_le hover).trans (le_nearestMultiple_of_dvd (spacing_pos hT hones) ?_ ?_)
  · rw [spacing_magnitude_val64 hT hones]
    exact powerOfTwo_dvd (by omega)
  · exact (powerOfTwo_le_magnitude_val64_iff hones (by omega)).2 le_rfl

include hzero

theorem roundTo_of_overflow (hover : emax T < unbiased64 d) : roundTo T (val64 d) = .infinite (sign64 d) := by
  rw [roundTo_val64 hones hzero, roundMagnitude_eq_infinite_iff]
  exact le_rounded_of_overflow hT hones hover

/-- Below the smallest subnormal's exponent rounding goes to zero or to the smallest subnormal (R89). -/
theorem roundTo_of_underflow (hunder : unbiased64 d < emin T - T.w) :
    roundTo T (val64 d) = .zero (sign64 d) ∨
      roundTo T (val64 d) = .finite (sign64 d) (powerOfTwo (emin T - T.w)) := by
  obtain ⟨-, hbottom, hrange, -⟩ := target_unit T hT
  have hspacing : spacing T (val64 d).magnitude = powerOfTwo (emin T - T.w) := by
    rw [spacing_magnitude_val64 hT hones, max_eq_right (by omega)]
  have hlt := (magnitude_val64_lt_iff hones (by omega)).2 hunder
  rw [roundTo_val64 hones hzero, roundMagnitude_eq_zero_iff,
    roundMagnitude_eq_finite_iff (powerOfTwo_pos _).ne', hspacing]
  refine (nearestMultiple_le_of_lt _ hlt).imp_right fun h => ⟨h, ?_⟩
  rw [powerOfTwo, powerOfTwo]
  exact Nat.pow_lt_pow_right (by norm_num) (by omega)

/-- In the target's range rounding keeps exactly the multiples of the spacing. -/
theorem roundTo_eq_self_iff (hhigh : unbiased64 d ≤ emax T) :
    roundTo T (val64 d) = val64 d ↔ spacing T (val64 d).magnitude ∣ (val64 d).magnitude := by
  obtain ⟨-, hbottom, hrange, -⟩ := target_unit T hT
  have hpos : (val64 d).magnitude ≠ 0 := by
    rw [magnitude_val64 hones]
    unfold subnormalUnits
    split_ifs with he
    · exact fun hm => hzero ⟨he, hm⟩
    · exact (Nat.mul_pos (by positivity) (by positivity)).ne'
  have hlt := (magnitude_val64_lt_iff hones (k := emax T + 1) (by omega)).2 (by omega)
  rw [roundTo_val64 hones hzero, ← nearestMultiple_eq_self_iff _ (spacing_pos hT hones)]
  conv_lhs => rhs; rw [val64_eq_finite hones hzero]
  rw [roundMagnitude_eq_finite_iff hpos]
  exact and_iff_left hlt

end Rounding

/-- The rows of R94 for either target, of rounding to the target's format. -/
theorem roundTo_by_label {T : Format} (hT : T ∈ [binary16, binary32]) (d : Double) :
    (classify T d = .exact → roundTo T (val64 d) = val64 d) ∧
    (classify T d = .inexact → roundTo T (val64 d) ≠ val64 d) ∧
    (classify T d = .overflow → roundTo T (val64 d) = .infinite (sign64 d)) ∧
    (classify T d = .underflow → roundTo T (val64 d) = .zero (sign64 d) ∨
      roundTo T (val64 d) = .finite (sign64 d) (powerOfTwo (emin T - T.w))) := by
  rcases classify_cases hT d with ⟨hspecial, h⟩ | ⟨hones, hzero,
    ⟨hover, h⟩ | ⟨hunder, h⟩ | ⟨-, hhigh, ⟨hdvd, h⟩ | ⟨hndvd, h⟩⟩⟩
  all_goals rw [h]
  · exact ⟨fun _ => roundTo_of_special hspecial, nofun, nofun, nofun⟩
  · exact ⟨nofun, nofun, fun _ => roundTo_of_overflow hT hones hzero hover, nofun⟩
  · exact ⟨nofun, nofun, nofun, fun _ => roundTo_of_underflow hT hones hzero hunder⟩
  · exact ⟨fun _ => (roundTo_eq_self_iff hT hones hzero hhigh).2 hdvd, nofun, nofun, nofun⟩
  · exact ⟨nofun, fun _ => mt (roundTo_eq_self_iff hT hones hzero hhigh).1 hndvd, nofun, nofun⟩

/-! ### The statements on labels -/

/-- Settles O45: the exponent of a subnormal pattern, −1023, is below both bounds. -/
theorem clsUnderflow : Obligations.ClsUnderflow := by
  intro d s hfields
  have hzero : ¬ (exp64 d = 0 ∧ man64 d = 0) := fun h =>
    hfields ⟨(exp64_eq_toNat_iff d 0).1 h.1, (man64_eq_toNat_iff d 0).1 h.2⟩
  have h16 (h : unbiased64 d < -24) : completesWith (.cls16 d) s 2 :=
    (completesWith_cls16_iff _ _ _).2 (congrArg placeLabel (classify_of_underflow (T := binary16) (by simp) hzero h))
  have h32 (h : unbiased64 d < -149) : completesWith (.cls32 d) s 2 :=
    (completesWith_cls32_iff _ _ _).2 (congrArg placeLabel (classify_of_underflow (T := binary32) (by simp) hzero h))
  refine ⟨h16, h32, fun he => ?_⟩
  have hexp : unbiased64 d = -1023 := by rw [unbiased64, (exp64_eq_toNat_iff d 0).2 he]; rfl
  exact ⟨h16 (by omega), h32 (by omega)⟩

/-- Settles O50: the label of CLS32 is `classify binary32`. -/
theorem cls32AgreesWithNarrowing : Obligations.Cls32AgreesWithNarrowing := fun d s =>
  ⟨classify binary32 d, (completesWith_cls32_iff d s _).2 rfl, roundTo_by_label (T := binary32) (by simp) d⟩

/-- What is exact for binary16 is exact for binary32, whose range is wider and whose spacing is finer everywhere. -/
theorem classify_binary32_of_binary16 {d : Double} (h : classify binary16 d = .exact) :
    classify binary32 d = .exact := by
  have h16 : binary16 ∈ [binary16, binary32] := by simp
  have h32 : binary32 ∈ [binary16, binary32] := by simp
  rcases classify_cases h16 d with ⟨hones | ⟨he, hm⟩, -⟩ | ⟨hones, -,
    ⟨-, h'⟩ | ⟨-, h'⟩ | ⟨hlow, hhigh, ⟨hdvd, -⟩ | ⟨-, h'⟩⟩⟩
  · exact classify_of_exp_ones _ hones
  · exact classify_of_zero _ he hm
  · simp [h] at h'
  · simp [h] at h'
  · have hnums : emin binary16 = -14 ∧ emax binary16 = 15 ∧ binary16.w = 10 ∧ emin binary32 = -126 ∧
      emax binary32 = 127 ∧ binary32.w = 23 := by decide
    rw [classify_of_in_range h32 hones (by omega) (by omega)]
    refine if_pos (Nat.dvd_trans ?_ hdvd)
    rw [spacing_magnitude_val64 h16 hones, spacing_magnitude_val64 h32 hones]
    exact powerOfTwo_dvd (by omega)
  · simp [h] at h'

/-- The magnitude of a decoded finite pattern, as a whole number of 2^−24 (R3, R65). -/
theorem magnitude_decodePattern {h : Half} (hfin : exp16 h ≠ 31) :
    (val64 (decodePattern h)).magnitude =
      subnormalUnits binary16 (exp16 h) (man16 h) * powerOfTwo (-24) := by
  rw [val64_decodePattern, val16, magnitude_valueOf (T := binary16) _ hfin, two_pow_unitShift (by simp)]
  rfl

/-- `classify_of_in_range` with binary16's numbers. -/
theorem classify_binary16_of_dvd {d : Double} (hones : exp64 d ≠ 2047) (hlow : -24 ≤ unbiased64 d)
    (hhigh : unbiased64 d ≤ 15) (hdvd : powerOfTwo (max (unbiased64 d) (-14) - 10) ∣ (val64 d).magnitude) :
    classify binary16 d = .exact := by
  rw [classify_of_in_range (T := binary16) (by simp) hones hlow hhigh, spacing_binary16 hones]
  exact if_pos hdvd

/-- Whatever the decoder gives is exact for binary16: its magnitude is a binary16 magnitude, a multiple of the spacing
at its exponent. -/
theorem classify_decodePattern (h : Half) : classify binary16 (decodePattern h) = .exact := by
  have hexp := exp16_lt h
  by_cases he : exp16 h = 0
  · by_cases hm : man16 h = 0
    · rw [decodePattern_of_zero he hm]
      exact classify_of_zero _ (exp64_pack64 _ _ _) (man64_pack64 _ _ _)
    · have hp := msb_man16_lt h hm
      obtain ⟨hle, hlt⟩ := (msb_eq_iff hm).1 rfl
      have hfield : exp64 (decodePattern h) = msb (man16 h) + 999 := by
        rw [decodePattern_of_subnormal he hle hlt, exp64_pack64]
        omega
      have hunb : unbiased64 (decodePattern h) = msb (man16 h) - 24 := by
        rw [unbiased64, hfield]
        omega
      refine classify_binary16_of_dvd (by omega) (by omega) (by omega) ?_
      rw [magnitude_decodePattern (by omega), max_eq_right (by omega)]
      exact Nat.dvd_mul_left _ _
  · by_cases hinf : exp16 h = 31
    · by_cases hm : man16 h = 0
      · rw [decodePattern_of_infinite hinf hm]
        exact classify_of_exp_ones _ (exp64_pack64 _ _ _)
      · rw [decodePattern_of_nan ((isNaN16_iff h).2 ⟨hinf, hm⟩)]
        decide
    · have hfield : exp64 (decodePattern h) = exp16 h + 1008 := by
        rw [decodePattern_of_normal he hinf, exp64_pack64]
        omega
      have hunb : unbiased64 (decodePattern h) = exp16 h - 15 := by
        rw [unbiased64, hfield]
        omega
      refine classify_binary16_of_dvd (by omega) (by omega) (by omega) ?_
      rw [magnitude_decodePattern hinf, subnormalUnits_of_ne_zero _ he, max_eq_left (by omega), mul_assoc,
        powerOfTwo_add (i := -24) (exp16 h - 1) (by omega) (by omega)]
      exact Nat.dvd_mul_left _ _

/-- Settles O52: exact for binary16, hence for binary32. -/
theorem decodedValuesAreExact : Obligations.DecodedValuesAreExact := by
  intro h s t
  have hexact := classify_decodePattern h
  refine ⟨_, (completesWith_dec16_iff h s _).2 rfl, (completesWith_cls16_iff _ t _).2 ?_,
    (completesWith_cls32_iff _ t _).2 ?_⟩
  · rw [hexact]; rfl
  · rw [classify_binary32_of_binary16 hexact]; rfl

/-- A binary16 value is its own rounding. -/
theorem roundTo_val16 (h : Half) : roundTo binary16 (val16 h) = val16 h := by
  rw [← val64_decodePattern]
  exact (roundTo_by_label (by simp) _).1 (classify_decodePattern h)

end Sys2Proof.Machine

/-! PROOFS. The encoder as a function of values (spec/41_encoder.md sections 3 and 5): ENC16 is rounding to binary16
(R80), and what follows of its signs, its order, its round trip and its labels (R68, R82, R94, R95). -/

namespace Sys2Proof.Machine

/-! ### Encoded patterns and their values -/

theorem completesWith_enc16_setWidth_iff (d : Double) (s : State) (h : Half) :
    completesWith (.enc16 d) s (h.setWidth 64) ↔ encodePattern d = h := by
  rw [completesWith_enc16_iff]
  refine ⟨fun heq => ?_, fun heq => heq ▸ rfl⟩
  rw [← extractLsb'_placeHalf (encodePattern d), heq]
  exact extractLsb'_placeHalf h

/-- Settles O20: the exponent field 0 alone settles the result. -/
theorem enc16SubnormalInputsGiveZero : Obligations.Enc16SubnormalInputsGiveZero := fun d s he _ =>
  completesWith_enc16_of_eq_pack16 s (encodePattern_of_exp_zero ((exp64_eq_toNat_iff d 0).2 he))

theorem val16_pack16 (s : Bool) {r : Nat} (hr : r ≤ infinityMagnitude) :
    val16 (pack16 s r) = valueOf binary16 s (r / 2 ^ 10) (r % 2 ^ 10) := by
  unfold infinityMagnitude at hr
  rw [val16, sign16_pack16, exp16_pack16, man16_pack16, Nat.mod_eq_of_lt (by omega)]

theorem val16_pack16_infinity (s : Bool) : val16 (pack16 s infinityMagnitude) = .infinite s :=
  (val16_pack16 s le_rfl).trans (valueOf_infinite binary16 s (by decide))

theorem val16_pack16_zero (s : Bool) : val16 (pack16 s 0) = .zero s := val16_pack16 s (Nat.zero_le _)

/-- The table of R3 read by the magnitude: infinity from the first power of two past the normals, else zero or the
finite value of that many units. -/
theorem valueOf_by_units {T : Format} (hT : allOnes T ≠ 0) (s : Bool) {e m : Nat} (hm : m < 2 ^ T.w)
    (he : e ≤ allOnes T) (hinf : e = allOnes T → m = 0) :
    valueOf T s e m =
      if 2 ^ (T.w + (allOnes T - 1)) ≤ subnormalUnits T e m then .infinite s
      else if subnormalUnits T e m = 0 then .zero s
      else .finite s (subnormalUnits T e m * 2 ^ unitShift T) := by
  rw [if_congr (two_pow_le_subnormalUnits_iff T hm) rfl rfl]
  by_cases hones : e = allOnes T
  · rw [hinf hones, hones, valueOf_infinite T s hT, if_pos (by omega)]
  · rw [if_neg (by omega)]
    by_cases hzero : e = 0
    · subst hzero
      change _ = if m = 0 then _ else Value.finite s (m * 2 ^ unitShift T)
      by_cases hm0 : m = 0
      · rw [if_pos hm0, hm0, valueOf_zero]
      · rw [if_neg hm0, valueOf_subnormal T s hm0]
    · have hpos : (2 ^ T.w + m) * 2 ^ (e - 1) ≠ 0 := by positivity
      rw [subnormalUnits_of_ne_zero T hzero, if_neg hpos, valueOf_normal T s hzero hones, pow_add, mul_assoc]

/-- The units of the encoder's magnitude field `R + (j << 10)`, where `R` is the rounded significand and `j` counts the
exponent from the subnormals' up: a carry out of `R` moves the exponent (R76, R77). -/
theorem subnormalUnits_binary16_add {R j : Nat} (hR : R ≤ 2 ^ 11) (hlow : j = 0 ∨ 2 ^ 10 ≤ R) :
    subnormalUnits binary16 ((R + j * 2 ^ 10) / 2 ^ 10) ((R + j * 2 ^ 10) % 2 ^ 10) = R * 2 ^ j := by
  have hquot : (R + j * 2 ^ 10) / 2 ^ 10 = R / 2 ^ 10 + j := Nat.add_mul_div_right _ _ (by norm_num)
  rw [hquot, Nat.add_mul_mod_self_right]
  rcases Nat.lt_or_ge R (2 ^ 10) with hsub | hnormal
  · obtain rfl : j = 0 := by omega
    rw [Nat.div_eq_of_lt hsub, Nat.mod_eq_of_lt hsub]
    exact (Nat.mul_one R).symm
  · rw [subnormalUnits_of_ne_zero _ (by omega)]
    change (2 ^ 10 + _) * _ = _
    rcases hR.eq_or_lt with rfl | hlt
    · rw [show 2 ^ 11 / 2 ^ 10 + j - 1 = 1 + j by omega, pow_add, ← mul_assoc]
      rfl
    · rw [show R / 2 ^ 10 + j - 1 = j by omega, show 2 ^ 10 + R % 2 ^ 10 = R by omega]

/-- The value of that field, infinity where it reaches 2^40 units. -/
theorem val16_pack16_add (s : Bool) {R j : Nat} (hR : R ≤ 2 ^ 11) (hj : j ≤ 29) (hlow : j = 0 ∨ 2 ^ 10 ≤ R) :
    val16 (pack16 s (R + j * 2 ^ 10)) =
      if 2 ^ 40 ≤ R * 2 ^ j then .infinite s
      else if R * 2 ^ j = 0 then .zero s
      else .finite s (R * 2 ^ j * powerOfTwo (-24)) := by
  have hle : R + j * 2 ^ 10 ≤ infinityMagnitude := by
    unfold infinityMagnitude
    omega
  rw [val16_pack16 s hle, valueOf_by_units (T := binary16) (m := (R + j * 2 ^ 10) % 2 ^ 10) (by decide) s
      (Nat.mod_lt _ (by norm_num)) ?_ ?_, subnormalUnits_binary16_add hR hlow, two_pow_unitShift (by simp)]
  · rfl
  all_goals
    unfold infinityMagnitude at hle
    rw [show allOnes binary16 = 31 from rfl]
    omega

/-! ### ENC16 is rounding to binary16 (R80) -/

/-- A rounded magnitude of `R × 2^j` units of 2^−24 is the value of the field `R + (j << 10)`. -/
theorem roundMagnitude_binary16 (s : Bool) {x R j : Nat} (hR : R ≤ 2 ^ 11) (hj : j ≤ 29)
    (hlow : j = 0 ∨ 2 ^ 10 ≤ R)
    (hx : nearestMultiple x (spacing binary16 x) = R * 2 ^ j * powerOfTwo (-24)) :
    val16 (pack16 s (R + j * 2 ^ 10)) = roundMagnitude binary16 s x := by
  have htop : powerOfTwo (emax binary16 + 1) = 2 ^ 40 * powerOfTwo (-24) :=
    powerOfTwo_add 40 (by norm_num) (by decide)
  have hunit := powerOfTwo_pos (-24)
  rw [val16_pack16_add s hR hj hlow, roundMagnitude, hx, htop]
  simp only [ge_iff_le, Nat.mul_le_mul_right_iff hunit, Nat.mul_eq_zero, hunit.ne', or_false]

section Cases
variable {d : Double}

/-- Rounding a normal magnitude to a power of two that lies `sh` places above the significand's last is `RNE` of the
significand. -/
theorem nearestMultiple_magnitude_val64 (hones : exp64 d ≠ 2047) (hnormal : -1022 ≤ unbiased64 d) {sh : Nat}
    (hsh : 1 ≤ sh) {k : Int} (hk : k = sh + (unbiased64 d - 52)) :
    nearestMultiple (val64 d).magnitude (powerOfTwo k) = rne (sig64 d) sh * powerOfTwo k := by
  rw [magnitude_val64_of_normal hones hnormal, powerOfTwo_add sh (by omega) hk,
    nearestMultiple_mul _ (powerOfTwo_pos _), ← rne_mul_two_pow _ hsh, mul_assoc]

theorem two_pow_le_rne_sig64 (d : Double) : 2 ^ 10 ≤ rne (sig64 d) 42 := by
  have hquot : 2 ^ 10 ≤ sig64 d / 2 ^ 42 := by
    unfold sig64
    omega
  rcases rne_cases (sig64 d) 42 with ⟨-, h⟩ | ⟨-, h⟩ <;> omega

/-- In the encoder's two rounding ranges its field is `RNE` of the significand at the place of binary16's spacing, above
the exponent's count from −14 up (R76, R77). -/
theorem encodePattern_of_rounded (hlow : -25 ≤ unbiased64 d) (hhigh : unbiased64 d ≤ 15) :
    ∃ R j : Nat, R ≤ 2 ^ 11 ∧ j ≤ 29 ∧ (j = 0 ∨ 2 ^ 10 ≤ R) ∧
      encodePattern d = pack16 (sign64 d) (R + j * 2 ^ 10) ∧
      nearestMultiple (val64 d).magnitude (spacing binary16 (val64 d).magnitude) =
        R * 2 ^ j * powerOfTwo (-24) := by
  have hones : exp64 d ≠ 2047 := by
    unfold unbiased64 at hhigh
    omega
  rw [spacing_binary16 hones]
  rcases Int.lt_or_le (unbiased64 d) (-14) with hsub | hnormal
  · refine ⟨rne (sig64 d) (28 - unbiased64 d).toNat, 0, ?_, by omega, .inl rfl, ?_, ?_⟩
    · exact rne_le_two_pow ((sig64_lt d).trans_le (Nat.pow_le_pow_right two_pos (by omega)))
    · exact encodePattern_of_subnormal hlow hsub
    · rw [show max (unbiased64 d) (-14) - 10 = -24 by omega, pow_zero, mul_one]
      exact nearestMultiple_magnitude_val64 hones (by omega) (by omega) (by omega)
  · refine ⟨rne (sig64 d) 42, (unbiased64 d + 14).toNat, ?_, by omega, .inr (two_pow_le_rne_sig64 d), ?_, ?_⟩
    · exact rne_le_two_pow (sig64_lt d)
    · exact encodePattern_of_normal hnormal hhigh
    · rw [show max (unbiased64 d) (-14) - 10 = unbiased64 d - 10 by omega, mul_assoc,
        ← powerOfTwo_add (i := -24) (j := unbiased64 d - 10) (unbiased64 d + 14).toNat (by omega) (by omega)]
      exact nearestMultiple_magnitude_val64 hones (by omega) (by omega) (by omega)

/-- Rounding to binary16 gives zero up to 2^−25: half the spacing of the subnormals, and above them a magnitude is more
than its spacing. -/
theorem rounded_eq_zero_iff_le (hones : exp64 d ≠ 2047) :
    nearestMultiple (val64 d).magnitude (spacing binary16 (val64 d).magnitude) = 0 ↔
      (val64 d).magnitude ≤ powerOfTwo (-25) := by
  rw [nearestMultiple_eq_zero_iff _ (spacing_pos (by simp) hones), spacing_binary16 hones]
  rcases Int.lt_or_le (-14) (unbiased64 d) with hnormal | hsub
  · have habove := (powerOfTwo_le_magnitude_val64_iff hones (k := unbiased64 d) (by omega)).2 le_rfl
    have hspacing : powerOfTwo (max (unbiased64 d) (-14) - 10) ≤ powerOfTwo (unbiased64 d) :=
      powerOfTwo_le (by omega)
    have hhalf : powerOfTwo (-25) < powerOfTwo (unbiased64 d) :=
      Nat.pow_lt_pow_right (by norm_num) (by omega)
    have hpos := powerOfTwo_pos (unbiased64 d)
    omega
  · rw [show max (unbiased64 d) (-14) - 10 = -24 by omega,
      powerOfTwo_add (i := -25) 1 (by norm_num) (by norm_num)]
    omega

/-- ENC16 as a function of values (R80). -/
theorem val16_encodePattern (d : Double) : val16 (encodePattern d) = roundTo binary16 (val64 d) := by
  by_cases hones : exp64 d = 2047
  · rw [roundTo_of_special (.inl hones)]
    by_cases hm : man64 d = 0
    · rw [encodePattern_of_infinite hones hm, val16_pack16_infinity, val64_of_infinite hones hm]
    · have hn : isNaN64 d = true := (isNaN64_iff d).2 ⟨hones, hm⟩
      rw [(val64_eq_nan_iff d).2 hn, val16_eq_nan_iff, isNaN16_encodePattern, hn]
  by_cases hzero : exp64 d = 0 ∧ man64 d = 0
  · rw [roundTo_of_special (.inr hzero), encodePattern_of_exp_zero hzero.1, val16_pack16_zero,
      val64_of_zero hzero.1 hzero.2]
  rcases Int.lt_or_le 15 (unbiased64 d) with hover | hhigh
  · rw [roundTo_of_overflow (T := binary16) (by simp) hones hzero hover, encodePattern_of_overflow hones hover,
      val16_pack16_infinity]
  rw [roundTo_val64 hones hzero]
  rcases Int.lt_or_le (unbiased64 d) (-25) with hunder | hlow
  · rw [encodePattern_of_underflow hunder, val16_pack16_zero]
    have hlt := (magnitude_val64_lt_iff hones (k := -25) (by norm_num)).2 hunder
    exact (roundMagnitude_eq_zero_iff.2 ((rounded_eq_zero_iff_le hones).2 hlt.le)).symm
  · obtain ⟨R, j, hR, hj, hcarry, henc, hrounded⟩ := encodePattern_of_rounded hlow hhigh
    rw [henc]
    exact roundMagnitude_binary16 _ hR hj hcarry hrounded

end Cases

/-- Off NaN the encoder keeps the sign. -/
theorem sign16_encodePattern {d : Double} (hn : isNaN64 d = false) : sign16 (encodePattern d) = sign64 d := by
  obtain ⟨r, -, henc⟩ := encodePattern_of_not_nan hn
  rw [henc, sign16_pack16]

/-! ### The thresholds (R80) -/

/-- Rounding to binary16 reaches infinity from 65520 up: at the exponent 15 that is half a spacing below 2048 of them. -/
theorem le_rounded_iff_65520_le {d : Double} (hones : exp64 d ≠ 2047) :
    powerOfTwo 16 ≤ nearestMultiple (val64 d).magnitude (spacing binary16 (val64 d).magnitude) ↔
      65520 * powerOfTwo 0 ≤ (val64 d).magnitude := by
  have h16 : binary16 ∈ [binary16, binary32] := by simp
  have hpow16 := powerOfTwo_natCast 16
  have hpow15 := powerOfTwo_natCast 15
  have hunit := powerOfTwo_pos 0
  rcases Int.lt_trichotomy (unbiased64 d) 15 with hlt | heq | hgt
  · have hbelow := (magnitude_val64_lt_iff hones (k := 15) (by norm_num)).2 hlt
    have hrounded : nearestMultiple (val64 d).magnitude (spacing binary16 (val64 d).magnitude) ≤ powerOfTwo 15 := by
      refine nearestMultiple_le_of_dvd (spacing_pos h16 hones) ?_ hbelow.le
      rw [spacing_binary16 hones]
      exact powerOfTwo_dvd (by omega)
    push_cast at hpow15 hpow16
    omega
  · have hspacing : spacing binary16 (val64 d).magnitude = 2 ^ 5 * powerOfTwo 0 := by
      rw [spacing_binary16 hones, show max (unbiased64 d) (-14) - 10 = 5 by omega]
      exact powerOfTwo_natCast 5
    have htop : powerOfTwo 16 = 2048 * (2 ^ 5 * powerOfTwo 0) := by
      push_cast at hpow16
      omega
    rw [hspacing, htop, even_mul_le_nearestMultiple_iff (by norm_num) (by norm_num) (by omega)]
    omega
  · have habove := (powerOfTwo_le_magnitude_val64_iff hones (k := 16) (by norm_num)).2 hgt
    have hrounded := le_rounded_of_overflow h16 hones hgt
    refine iff_of_true hrounded ?_
    push_cast at hpow16
    omega

/-- Settles O25: the values by `val16_encodePattern`; the thresholds are where the rounded magnitude reaches 2^16 and
where it is 0. -/
theorem enc16IsCorrectRounding : Obligations.Enc16IsCorrectRounding := by
  intro d s
  refine ⟨encodePattern d, (completesWith_enc16_setWidth_iff d s _).2 rfl, val16_encodePattern d, fun neg m hval => ?_⟩
  obtain ⟨hones, hzero, rfl, rfl⟩ := of_val64_eq_finite hval
  rw [val16_encodePattern, roundTo_val64 hones hzero, roundMagnitude_eq_infinite_iff, roundMagnitude_eq_zero_iff]
  refine ⟨le_rounded_iff_65520_le hones, rounded_eq_zero_iff_le hones, sign16_encodePattern ?_⟩
  rw [Bool.eq_false_iff, Ne, isNaN64_iff]
  exact fun h => hones h.1

/-! ### Signs, order and round trip (R68, R82) -/

theorem sign64_xor_signBit (d : Double) : sign64 (d ^^^ 0x8000000000000000) = !sign64 d := by
  simp [sign64]

/-- The sign of a binary16 pattern is its bit 15. -/
theorem pack16_not (s : Bool) (r : Nat) : pack16 (!s) r = pack16 s r ^^^ 0x8000 := by
  have hmask : (0x8000 : Half) = BitVec.ofBool true ++ 0#15 := by decide
  rw [pack16, pack16, hmask, BitVec.xor_append, BitVec.ofBool_xor_ofBool, Bool.xor_true, BitVec.xor_zero]

/-- Off NaN the magnitude field that the encoder makes depends on the exponent and mantissa fields alone. -/
theorem encodePattern_congr {d d' : Double} (hn : isNaN64 d = false) (he : exp64 d' = exp64 d)
    (hm : man64 d' = man64 d) :
    ∃ r, encodePattern d = pack16 (sign64 d) r ∧ encodePattern d' = pack16 (sign64 d') r := by
  have hu : unbiased64 d' = unbiased64 d := by rw [unbiased64, unbiased64, he]
  have hs : sig64 d' = sig64 d := by rw [sig64, sig64, hm]
  by_cases hones : exp64 d = 2047
  · have hman : man64 d = 0 := by_contra fun h => by simp [(isNaN64_iff d).2 ⟨hones, h⟩] at hn
    exact ⟨_, encodePattern_of_infinite hones hman, encodePattern_of_infinite (he.trans hones) (hm.trans hman)⟩
  rcases Int.lt_or_le 15 (unbiased64 d) with hover | hhigh
  · exact ⟨_, encodePattern_of_overflow hones hover, encodePattern_of_overflow (by omega) (by omega)⟩
  rcases Int.lt_or_le (unbiased64 d) (-25) with hunder | hlow
  · exact ⟨_, encodePattern_of_underflow hunder, encodePattern_of_underflow (by omega)⟩
  rcases Int.lt_or_le (unbiased64 d) (-14) with hsub | hnormal
  · exact ⟨_, encodePattern_of_subnormal hlow hsub, hs ▸ hu ▸ encodePattern_of_subnormal (by omega) (by omega)⟩
  · exact ⟨_, encodePattern_of_normal hnormal hhigh, hs ▸ hu ▸ encodePattern_of_normal (by omega) (by omega)⟩

/-- Settles O26: the flipped input has the same magnitude field under the other sign. -/
theorem enc16SignSymmetry : Obligations.Enc16SignSymmetry := by
  intro d s y hn hy
  obtain ⟨r, hr, hr'⟩ := encodePattern_congr hn (exp64_xor_signBit d) (man64_xor_signBit d)
  rw [completesWith_enc16_iff] at hy ⊢
  rw [hr', sign64_xor_signBit, pack16_not, ← hr, ← hy, placeHalf, placeHalf, BitVec.setWidth_xor]
  rfl

/-- Settles O28: rounding keeps the decoded value, and off NaN the value has one pattern. -/
theorem encodeOfDecodedPatternRoundTrips : Obligations.EncodeOfDecodedPatternRoundTrips := by
  intro p s t
  have hval : val16 (encodePattern (decodePattern p)) = val16 p := by
    rw [val16_encodePattern, val64_decodePattern, roundTo_val16]
  refine ⟨_, (completesWith_dec16_iff p s _).2 rfl, fun hn => ?_, fun hn => ?_⟩
  · refine (completesWith_enc16_setWidth_iff _ t p).2 (eq_of_val16_eq hval ?_)
    rw [Ne, val16_eq_nan_iff, hn]
    decide
  · rw [completesWith_enc16_iff, encodePattern_of_nan ((isNaN64_decodePattern p).trans hn)]
    decide

/-! ### Order (R82) -/

section Order
variable (T : Format) (s : Bool) (x : Nat)

theorem sign_roundTo (v : Value) : (roundTo T v).sign = v.sign := by
  cases v with
  | zero | infinite | nan => rfl
  | finite s x =>
    simp only [roundTo, roundMagnitude]
    split_ifs <;> rfl

theorem magnitude_roundMagnitude :
    (roundMagnitude T s x).magnitude =
      if powerOfTwo (emax T + 1) ≤ nearestMultiple x (spacing T x) then powerOfTwo 1024
      else nearestMultiple x (spacing T x) := by
  unfold roundMagnitude
  split_ifs with hover hzero
  · rfl
  · exact hzero.symm
  · rfl

end Order

theorem magnitude_roundTo_eq_zero (T : Format) {v : Value} (h : v.magnitude = 0) :
    (roundTo T v).magnitude = 0 := by
  cases v with
  | zero | nan => rfl
  | infinite => exact absurd h (powerOfTwo_pos 1024).ne'
  | finite s x =>
    obtain rfl : x = 0 := h
    have hrounded : nearestMultiple 0 (spacing T 0) = 0 := by simp [nearestMultiple]
    rw [roundTo, magnitude_roundMagnitude, hrounded, if_neg (powerOfTwo_pos _).not_ge]

theorem sign_eq_none_iff (v : Value) : v.sign = none ↔ v = .nan := by
  cases v <;> simp [Value.sign]

theorem val64_of_ones_of_ne_nan {d : Double} (hones : exp64 d = 2047) (hn : val64 d ≠ .nan) :
    val64 d = .infinite (sign64 d) :=
  val64_of_infinite hones (by_contra fun hm => hn ((val64_eq_nan_iff d).2 ((isNaN64_iff d).2 ⟨hones, hm⟩)))

section Monotone
variable {T : Format} (hT : T ∈ [binary16, binary32]) {d d' : Double}
include hT

/-- The formula of `magnitude_roundMagnitude` for zeros too, which round to themselves. -/
theorem magnitude_roundTo_val64 (hones : exp64 d ≠ 2047) :
    (roundTo T (val64 d)).magnitude =
      if powerOfTwo (emax T + 1) ≤ nearestMultiple (val64 d).magnitude (spacing T (val64 d).magnitude)
      then powerOfTwo 1024
      else nearestMultiple (val64 d).magnitude (spacing T (val64 d).magnitude) := by
  by_cases hzero : exp64 d = 0 ∧ man64 d = 0
  · have hmag : (val64 d).magnitude = 0 := by rw [val64_of_zero hzero.1 hzero.2]; rfl
    have hrounded : nearestMultiple (val64 d).magnitude (spacing T (val64 d).magnitude) = 0 :=
      (nearestMultiple_eq_zero_iff _ (spacing_pos hT hones)).2 (by omega)
    rw [hrounded, magnitude_roundTo_eq_zero T hmag, if_neg (powerOfTwo_pos _).not_ge]
  · rw [roundTo_val64 hones hzero, magnitude_roundMagnitude]

/-- Rounding keeps the order of magnitudes, infinity being above the finite ones before and after it. -/
theorem magnitude_roundTo_mono (hn : val64 d ≠ .nan) (hn' : val64 d' ≠ .nan)
    (hle : (val64 d).magnitude ≤ (val64 d').magnitude) :
    (roundTo T (val64 d)).magnitude ≤ (roundTo T (val64 d')).magnitude := by
  have htop : powerOfTwo (emax T + 1) ≤ powerOfTwo 1024 := powerOfTwo_le (target_top T hT)
  by_cases hones : exp64 d = 2047 <;> by_cases hones' : exp64 d' = 2047
  · rw [val64_of_ones_of_ne_nan hones hn, val64_of_ones_of_ne_nan hones' hn']
    exact le_rfl
  · have hfin : (val64 d').magnitude < powerOfTwo 1024 := by
      refine (magnitude_val64_lt_iff hones' (by norm_num)).2 ?_
      have := exp64_lt d'
      unfold unbiased64
      omega
    rw [val64_of_ones_of_ne_nan hones hn] at hle
    exact absurd hle hfin.not_ge
  · rw [val64_of_ones_of_ne_nan hones' hn', magnitude_roundTo_val64 hT hones]
    change _ ≤ powerOfTwo 1024
    split_ifs <;> omega
  · have hrounded := rounded_mono hT hones hones' hle
    rw [magnitude_roundTo_val64 hT hones, magnitude_roundTo_val64 hT hones']
    split_ifs <;> omega

/-- Rounding keeps the sign, and the order of magnitudes in both directions, hence the order of places. -/
theorem atMost_roundTo (h : (val64 d).atMost (val64 d')) :
    (roundTo T (val64 d)).atMost (roundTo T (val64 d')) := by
  obtain ⟨hn, hn', hplace⟩ := h
  have hup := magnitude_roundTo_mono hT hn hn'
  have hdown := magnitude_roundTo_mono hT hn' hn
  have hzero := magnitude_roundTo_eq_zero T (v := val64 d)
  have hzero' := magnitude_roundTo_eq_zero T (v := val64 d')
  refine ⟨?_, ?_, ?_⟩
  · rwa [Ne, ← sign_eq_none_iff, sign_roundTo, sign_eq_none_iff]
  · rwa [Ne, ← sign_eq_none_iff, sign_roundTo, sign_eq_none_iff]
  · unfold Value.place at hplace ⊢
    rw [sign_roundTo, sign_roundTo]
    split_ifs at hplace ⊢ <;> omega

end Monotone

/-- Settles O27: the encoded values are the rounded ones (R80), and rounding keeps the order of places. -/
theorem enc16IsMonotone : Obligations.Enc16IsMonotone := by
  intro s d₁ d₂ h₁ h₂ henc₁ henc₂ hle
  rw [completesWith_enc16_setWidth_iff] at henc₁ henc₂
  rw [← henc₁, ← henc₂, val16_encodePattern, val16_encodePattern]
  exact atMost_roundTo (by simp) hle

/-! ### The labels of CLS16 and the encoder (R94, R95) -/

/-- A pattern that is `{s, r15}` by its value. -/
theorem eq_pack16_of_val16_eq {h : Half} {s : Bool} {r : Nat} {v : Value} (hval : val16 h = v)
    (hpack : val16 (pack16 s r) = v) (hv : v ≠ .nan) : h = pack16 s r :=
  eq_of_val16_eq (hval.trans hpack.symm) (hpack ▸ hv)

theorem val16_pack16_one (s : Bool) : val16 (pack16 s 1) = .finite s (powerOfTwo (-24)) := by
  have h := val16_pack16_add s (R := 1) (j := 0) (by norm_num) (by norm_num) (.inl rfl)
  generalize powerOfTwo (-24) = unit at h ⊢
  simpa using h

/-- The 15 low bits and the sign bit of a pattern put together from them. -/
theorem pack16_small_fields (s : Bool) :
    (pack16 s 0).extractLsb' 0 15 = 0 ∧ (pack16 s 1).extractLsb' 0 15 = 1 ∧
      (pack16 s 0).extractLsb' 15 1 = BitVec.ofBool s ∧ (pack16 s 1).extractLsb' 15 1 = BitVec.ofBool s := by
  cases s <;> decide

/-- Settles O48: the rows of R94 for rounding to binary16, with ENC16 as that rounding and DEC16 exact. -/
theorem cls16AgreesWithEnc16 : Obligations.Cls16AgreesWithEnc16 := by
  intro d s
  obtain ⟨hexact, hinexact, hoverflow, hunderflow⟩ := roundTo_by_label (T := binary16) (by simp) d
  have hval := val16_encodePattern d
  have hdec : val64 (decodePattern (encodePattern d)) = roundTo binary16 (val64 d) :=
    (val64_decodePattern _).trans hval
  refine ⟨classify binary16 d, encodePattern d, _, (completesWith_cls16_iff d s _).2 rfl,
    (completesWith_enc16_setWidth_iff d s _).2 rfl, (completesWith_dec16_iff _ s _).2 rfl,
    fun hl => ⟨hdec.trans (hexact hl), fun hn => ?_⟩, fun hl => hdec ▸ hinexact hl, fun hl => ?_, fun hl => ?_⟩
  · refine eq_of_val64_eq (hdec.trans (hexact hl)) ?_
    rw [Ne, val64_eq_nan_iff, hn]
    decide
  · rw [← ofBool_sign64]
    exact eq_pack16_of_val16_eq (hval.trans (hoverflow hl)) (val16_pack16_infinity _) nofun
  · obtain ⟨hzero, hone, hsign, hsign'⟩ := pack16_small_fields (sign64 d)
    rw [← ofBool_sign64]
    rcases hunderflow hl with h | h
    · rw [eq_pack16_of_val16_eq (hval.trans h) (val16_pack16_zero _) nofun]
      exact ⟨.inl hzero, hsign⟩
    · rw [eq_pack16_of_val16_eq (hval.trans h) (val16_pack16_one _) nofun]
      exact ⟨.inr hone, hsign'⟩

theorem placeLabel_eq_zero_iff (l : Label) : placeLabel l = 0 ↔ l = .exact := by
  cases l <;> decide

/-- Settles O49: an exact input rounds to itself, which ENC16 gives a pattern for; a binary16 value is the value of a
decoded pattern, and of no other binary64 pattern. -/
theorem cls16ExactIffBinary16Value : Obligations.Cls16ExactIffBinary16Value := by
  intro d s neg m hval
  rw [completesWith_cls16_iff, placeLabel_eq_zero_iff]
  constructor
  · intro hl
    exact ⟨encodePattern d, (val16_encodePattern d).trans ((roundTo_by_label (by simp) d).1 hl)⟩
  · rintro ⟨h, hh⟩
    obtain rfl : d = decodePattern h := eq_of_val64_eq (by rw [val64_decodePattern, hh]) (by
      rw [val64_decodePattern, hh, hval]
      nofun)
    exact classify_decodePattern h

/-- Settles O51: the encoded value is the one the thresholds of R80 name, or the smallest subnormal where underflow is
not zero; the label is settled by the exponent, and at the exponent 15 by the value having changed. -/
theorem labelsPromiseNoConverse : Obligations.LabelsPromiseNoConverse := by
  intro d s neg m hval
  obtain ⟨hones, hzero, rfl, rfl⟩ := of_val64_eq_finite hval
  have h16 : binary16 ∈ [binary16, binary32] := by simp
  have henc := val16_encodePattern d
  have hround := roundTo_val64 (T := binary16) hones hzero
  have hunder (hlt : (val64 d).magnitude < powerOfTwo (-24)) : unbiased64 d < -24 :=
    (magnitude_val64_lt_iff hones (by norm_num)).1 hlt
  have hcls (hlt : (val64 d).magnitude < powerOfTwo (-24)) : completesWith (.cls16 d) s 2 :=
    (completesWith_cls16_iff d s _).2 (congrArg placeLabel (classify_of_underflow h16 hzero (hunder hlt)))
  simp only [ofBool_sign64]
  refine ⟨fun hlow hhigh => ?infinite, fun hlow hhigh => ⟨hcls hhigh, ?smallest⟩, fun hle => ⟨hcls ?_, ?zero⟩⟩
  case infinite =>
    have hexp := unbiased64_eq_of_magnitude hones hlow hhigh
    have hinf : roundTo binary16 (val64 d) = .infinite (sign64 d) := by
      rw [hround, roundMagnitude_eq_infinite_iff]
      exact (le_rounded_iff_65520_le hones).2 hlow
    refine ⟨(completesWith_cls16_iff d s _).2 ?_, completesWith_enc16_of_eq_pack16 s
      (eq_pack16_of_val16_eq (henc.trans hinf) (val16_pack16_infinity _) nofun)⟩
    have hne : roundTo binary16 (val64 d) ≠ val64 d := by
      rw [hinf, hval]
      nofun
    have hndvd := mt (roundTo_eq_self_iff h16 hones hzero hexp.le).2 hne
    rw [classify_of_in_range h16 hones (by rw [hexp]; decide) hexp.le, if_neg hndvd]
    rfl
  case smallest =>
    refine completesWith_enc16_of_eq_pack16 s (eq_pack16_of_val16_eq henc ?_ ?_)
    all_goals
      have hne : roundTo binary16 (val64 d) ≠ .zero (sign64 d) := by
        rw [hround, Ne, roundMagnitude_eq_zero_iff, rounded_eq_zero_iff_le hones]
        exact hlow.not_ge
      rw [(roundTo_of_underflow h16 hones hzero (hunder hhigh)).resolve_left hne]
    · exact val16_pack16_one _
    · nofun
  case zero =>
    have h0 : roundTo binary16 (val64 d) = .zero (sign64 d) := by
      rw [hround, roundMagnitude_eq_zero_iff, rounded_eq_zero_iff_le hones]
      exact hle
    exact completesWith_enc16_of_eq_pack16 s
      (eq_pack16_of_val16_eq (henc.trans h0) (val16_pack16_zero _) nofun)
  · exact hle.trans_lt (Nat.pow_lt_pow_right (by norm_num) (by norm_num))

end Sys2Proof.Machine
